-- ==== Sys2Proof/Word.lean ====
section
/-!
DEFINITION. The two word types of the LS-8 core (spec/00_scope.md rules R5 and R6). Every value is unsigned.
-/

namespace Sys2Proof

/-- A byte, the spec's `u8`: registers, memory cells, opcode and operand bytes, memory addresses. -/
abbrev Byte := BitVec 8

/-- Nine bits, the spec's `u9`: the program counter and the detail of a fault (`PC_WIDTH = 9`). -/
abbrev PcWord := BitVec 9

/-- The number of a general register, 0 to 7: `NREGS = 8` (R5, R20). -/
abbrev Reg := Fin 8

end Sys2Proof
end

