-- ==== Sys2Proof/Config.lean ====
section
/-!
DEFINITION. The parameters of the implementation (spec/00_scope.md rule R5) that are sizes, and the TYPE of the
opcode assignment, which spec/30_encoding.md rule R87 asks a model to keep as configuration. Their values that have
the weakest evidence stand where a repair can reach them: the twelve bytes in Sys2Proof/Decode.lean
(`defaultOpcodes`), the reset values of SP and pc in Sys2Proof/Machine/Params.lean.
-/

namespace Sys2Proof

/-- `MEM_SIZE`: bytes of memory, addresses 0 to 255 (R5, R28; log 5). -/
def Config.memSize : Nat := 256

/-- `SP_REG`: the general register that is the stack pointer (R5, R21). -/
def Config.spReg : Reg := 7

/-- The opcode byte of each of the twelve instructions (R5 `OPC_*`, R85). -/
structure OpcodeBytes where
  ldi  : Byte
  prn  : Byte
  mul  : Byte
  add  : Byte
  sub  : Byte
  div  : Byte
  push : Byte
  pop  : Byte
  call : Byte
  ret  : Byte
  nop  : Byte
  hlt  : Byte
  deriving DecidableEq, Repr

/-- The twelve bytes in the order of the spec's opcode table (R85). -/
def OpcodeBytes.bytes (t : OpcodeBytes) : List Byte :=
  [t.ldi, t.prn, t.mul, t.add, t.sub, t.div, t.push, t.pop, t.call, t.ret, t.nop, t.hlt]

/-- What R87 requires of an assignment: the twelve bytes are pairwise distinct. -/
abbrev OpcodeBytes.Distinct (t : OpcodeBytes) : Prop := t.bytes.Nodup

end Sys2Proof
end

