-- ==== Sys2Proof/Machine/Memory.lean ====
section
/-!
DEFINITION. The one memory of spec/10_state.md rule R28 and spec/20_memory.md, as plain data: the list of the cells
that do not hold 0, in rising order of address. Every access is one byte (R53).
-/

namespace Sys2Proof.Machine

/-- Memory: the cells that differ from what an unlisted address reads as. -/
abbrev Memory := List Host.Cell

/-- What an address that is not listed reads as: memory is zero after reset (R28, R38). -/
def Memory.unlisted : Byte := 0

/-- `MemRead(addr, 1)` (R9): the byte in a cell. Reading has no side effect (R55). -/
def Memory.read : Memory → Nat → Byte
  | [], _ => Memory.unlisted
  | (b, w) :: rest, addr => if b = addr then w else Memory.read rest addr

/-- A cell in front of the cells above it, or nothing where the byte is what an unlisted address reads as. -/
def Memory.listCell (addr : Nat) (v : Byte) (rest : Memory) : Memory :=
  if v = Memory.unlisted then rest else (addr, v) :: rest

/-- `MemWrite(addr, 1, v)` (R9): stores one byte in one cell, keeping the canonical form. -/
def Memory.write : Memory → Nat → Byte → Memory
  | [], addr, v => Memory.listCell addr v []
  | (b, w) :: rest, addr, v =>
    if addr < b then Memory.listCell addr v ((b, w) :: rest)
    else if addr = b then Memory.listCell addr v rest
    else (b, w) :: Memory.write rest addr v

/-- A sequence of bytes stored at rising addresses (R213). -/
def Memory.writeBytes (m : Memory) (addr : Nat) : List Byte → Memory
  | [] => m
  | v :: vs => Memory.writeBytes (m.write addr v) (addr + 1) vs

/-- Up to `n` bytes at rising addresses, ending at the end of memory: no address above 255 is read (R52). -/
def Memory.bytesFrom (m : Memory) (addr : Nat) : Nat → List Byte
  | 0 => []
  | n + 1 => if addr < Config.memSize then m.read addr :: Memory.bytesFrom m (addr + 1) n else []

/-- The canonical form of the cells from address `low` up: addresses strictly rising and inside memory, no cell equal
to what an unlisted address reads as. -/
def Memory.wfFrom (low : Nat) : Memory → Bool
  | [] => true
  | (a, v) :: rest => decide (low ≤ a) && decide (a < Config.memSize) && decide (v ≠ Memory.unlisted) && Memory.wfFrom (a + 1) rest

/-- The canonical form: equal memories are equal lists. -/
def Memory.wf (m : Memory) : Bool := Memory.wfFrom 0 m

end Sys2Proof.Machine
end

