-- ==== Sys2Proof/Machine/Params.lean ====
section
/-!
DEFINITION. The parameters of the implementation that are reset values (spec/00_scope.md rule R5). They stand in a file
of their own because the spec calls the evidence for `SP_INIT` an open discrepancy (spec/92_eei_decisions.md D3).
-/

namespace Sys2Proof.Machine

/-- `SP_INIT`: the reset value of R7, 0xF4 = 244 (R5, R38; log 5). -/
def spInit : Byte := 0xF4

/-- `PC_INIT`: the reset value of the pc (R5, R38). -/
def pcInit : PcWord := 0

/-- `LOAD_BASE`: the address `loadProgram` starts at (R5, R213). -/
def loadBase : Nat := 0

end Sys2Proof.Machine
end

