-- ==== Sys2Proof/Machine/State.lean ====
section
/-!
DEFINITION. The complete state of spec/10_state.md rule R39, with the environment's output sequence (R34) and the host
protocol's `started` bit (spec/70_reset_and_hazards.md rule R232), its value after reset (R38, R210), and the reasons a
step can stop.
-/

namespace Sys2Proof.Machine

/-- `run_state` (R31): the two states of the sequencer. -/
inductive RunState where
  | running
  | halted
  deriving DecidableEq, Repr

/-- `fault_code` (R32, R181): the cause of the fault that halted the core, or `none`. The numbers are in
Sys2Proof/Machine/Flags.lean. -/
inductive FaultCode where
  /-- no fault; the reset value, kept by HLT -/
  | none
  /-- memory address or register index outside its range (R182) -/
  | outOfBounds
  /-- the byte fetched matches no row of the opcode table (R183) -/
  | unknownOpcode
  /-- DIV with a zero divisor (R184) -/
  | divisionByZero
  /-- PUSH or CALL with SP = 0 (R185) -/
  | stackOverflow
  /-- POP or RET whose increment would give 256 (R186) -/
  | stackUnderflow
  deriving DecidableEq, Repr

/-- Reasons for which the MODEL stops. There is none: each of the five faults of the hardware is an effect the spec
describes (R187: HALTED, cause, detail), so the meaning takes it as a next state (log 3). Raised by nothing; safe. -/
inductive Fault where
  deriving DecidableEq, Repr

/-- Reasons for which the model gives no meaning. -/
inductive Refusal where
  /-- An instruction of the opcode table without a meaning yet, raised by its arm of `exec` alone. No arm raises it
  now. Safe: the model stops where the hardware goes on. -/
  | notModelled (mnemonic : String)
  deriving DecidableEq, Repr

/-- The whole state of the core (R39). -/
structure State where
  /-- the general registers; `x[7]` is the stack pointer (R20, R21) -/
  x : Vector Byte 8
  /-- the program counter (R25) -/
  pc : PcWord
  /-- the memory (R28) -/
  mem : Memory
  /-- RUNNING or HALTED (R31) -/
  runState : RunState
  /-- the cause of the fault that halted the core (R32) -/
  faultCode : FaultCode
  /-- the detail of that fault (R33) -/
  faultInfo : PcWord
  /-- the values PRN has emitted since reset, oldest first (R34) -/
  out : List Byte
  /-- `run` has been invoked since reset (R232) -/
  started : Bool
  deriving DecidableEq, Repr

/-- The machine right after reset (R38, R210, R232): no program is loaded and the host has not invoked `run`. -/
def State.reset : State where
  x := #v[0, 0, 0, 0, 0, 0, 0, spInit]
  pc := pcInit
  mem := []
  runState := .running
  faultCode := .none
  faultInfo := 0
  out := []
  started := false

/-- How a step or a meaning ends. -/
abbrev Result := Host.Outcome State Fault Refusal

end Sys2Proof.Machine
end

