-- ==== Sys2Proof/Machine/Ops.lean ====
section
/-!
DEFINITION. The named operations over registers, memory, pc and output in which every meaning is written
(spec/00_scope.md rules R8 to R11), and taking a fault, once (spec/60_exceptions.md rule R187). There is no return from
a fault and no instruction that leaves HALTED (R190); only reset does, which is `State.reset`.
-/

namespace Sys2Proof.Machine

/-- `x[r]` (R8). -/
def State.readReg (s : State) (r : Reg) : Byte := s.x[r]

/-- `x[r] <- v` (R8). No register is hard-wired (R22). -/
def State.writeReg (s : State) (r : Reg) (v : Byte) : State := { s with x := s.x.set r v }

/-- `SP`, the same storage as `x[7]` (R8, R21). -/
def State.sp (s : State) : Byte := s.readReg Config.spReg

/-- `SP <- v` (R8, R21). -/
def State.setSp (s : State) (v : Byte) : State := s.writeReg Config.spReg v

/-- `MemRead(addr, 1)` (R9). -/
def State.readMem (s : State) (addr : Byte) : Byte := s.mem.read addr.toNat

/-- `MemWrite(addr, 1, v)` (R9). -/
def State.writeMem (s : State) (addr v : Byte) : State := { s with mem := s.mem.write addr.toNat v }

/-- `Out(v)` (R10). -/
def State.emit (s : State) (v : Byte) : State := { s with out := s.out ++ [v] }

/-- `pc <- t` (R8). -/
def State.setPc (s : State) (t : PcWord) : State := { s with pc := t }

/-- `pc <- pc + L` (R108): nine bits, not reduced modulo 256 (log 8). -/
def State.advance (s : State) (length : PcWord) : State := s.setPc (s.pc + length)

/-- `zext_9` (R7). -/
def zext9 (v : Byte) : PcWord := v.setWidth 9

/-- `run_state <- HALTED` and nothing else (R171). -/
def State.halt (s : State) : State := { s with runState := .halted }

/-- Fault entry (R187): exactly `run_state`, `fault_code` and `fault_info` are written. -/
def State.recordFault (s : State) (code : FaultCode) (info : PcWord) : State :=
  { s with runState := .halted, faultCode := code, faultInfo := info }

/-- `raise <Fault>(info)` (R11, R187): the instruction ends at once in the halted state that records the fault. -/
def raise (code : FaultCode) (info : PcWord) (s : State) : Result := .next (s.recordFault code info)

/-- The address a push stores to, `SP - 1`; none when the decrement would take SP below 0 (R150, R153). -/
def State.pushAddress (s : State) : Option Byte := if s.sp = 0 then none else some (s.sp - 1)

/-- The core takes a step exactly when it has been started and is RUNNING (R232). -/
abbrev State.Stepping (s : State) : Prop := s.started = true ∧ s.runState = .running

end Sys2Proof.Machine
end

