-- ==== Sys2Proof/Machine/Operands.lean ====
section
/-!
DEFINITION. The one operand form that is checked: a register operand byte (spec/40_execution_cycle.md rule R106,
spec/30_encoding.md rule R82). The other form, LDI's immediate, is the byte itself (R83).
-/

namespace Sys2Proof.Machine

/-- The register an operand byte names: the whole byte is the index, valid in 0..7, never masked (R82). -/
def regIndex (n : Byte) : Option Reg := if h : n.toNat < 8 then some ⟨n.toNat, h⟩ else none

/-- Validates register operand `a`, then goes on; otherwise `OutOfBounds(a)` before any effect (R106). -/
def withReg (a : Byte) (s : State) (k : Reg → Result) : Result :=
  match regIndex a with
  | some r => k r
  | none => raise .outOfBounds (zext9 a) s

/-- Validates `a`, then `b` (R106: "Operand `a` is checked before operand `b`"). -/
def withRegs (a b : Byte) (s : State) (k : Reg → Reg → Result) : Result :=
  withReg a s fun ra => withReg b s fun rb => k ra rb

end Sys2Proof.Machine
end

