-- ==== Sys2Proof/Machine/Arith.lean ====
section
/-!
DEFINITION. The ALU and MUL, ADD, SUB, DIV (spec/42_alu.md).
-/

namespace Sys2Proof.Machine

/-- The operation tags: exactly four (R130, R137). -/
inductive AluOp where
  | add | sub | mul | div
  deriving DecidableEq, Repr

/-- The ALU (R130): a pure function of two bytes. ADD, SUB and MUL wrap modulo 256 (R135), DIV is the unsigned floor
quotient (R136); `none` is the condition `DivisionByZero`. -/
def alu : AluOp → Byte → Byte → Option Byte
  | .add, va, vb => some (va + vb)
  | .sub, va, vb => some (va - vb)
  | .mul, va, vb => some (va * vb)
  | .div, va, vb => if vb = 0 then none else some (va / vb)

/-- An ALU instruction: both sources are read before the destination, the first register, is written (R138, R139). -/
def execAlu (op : AluOp) (a b : Byte) (s : State) : Result :=
  withRegs a b s fun ra rb =>
    match alu op (s.readReg ra) (s.readReg rb) with
    | some v => .next ((s.writeReg ra v).advance 3)
    | none => raise .divisionByZero 0 s

/-- MUL (R131). -/
def execMul (a b : Byte) (s : State) : Result := execAlu .mul a b s

/-- ADD (R132). -/
def execAdd (a b : Byte) (s : State) : Result := execAlu .add a b s

/-- SUB (R133). -/
def execSub (a b : Byte) (s : State) : Result := execAlu .sub a b s

/-- DIV (R134). -/
def execDiv (a b : Byte) (s : State) : Result := execAlu .div a b s

end Sys2Proof.Machine
end

