-- ==== Sys2Proof/Machine/Control.lean ====
section
/-!
DEFINITION. CALL and RET (spec/44_call_ret.md), the only instructions that write the pc with anything but pc + length.
-/

namespace Sys2Proof.Machine

/-- The return address of a CALL, `pc + 2`; none when it is above 255 and so no address of this memory (R160). -/
def State.returnAddress (s : State) : Option Byte :=
  if s.pc.toNat + 2 > 255 then none else some (BitVec.ofNat 8 (s.pc.toNat + 2))

/-- CALL (R160): `StackOverflow` is checked before the return address; then `MemWrite(SP - 1, 1, pc + 2);
SP <- SP - 1; pc <- zext_9(x[a])`, the target register read last. -/
def execCall (a : Byte) (s : State) : Result :=
  withReg a s fun r =>
    match s.pushAddress with
    | none => raise .stackOverflow 0 s
    | some top =>
      match s.returnAddress with
      | none => raise .outOfBounds (s.pc + 2) s
      | some ret =>
        let s1 := (s.writeMem top ret).setSp top
        .next (s1.setPc (zext9 (s1.readReg r)))

/-- RET (R161): `if SP = 255: raise StackUnderflow(0); pc <- zext_9(MemRead(SP, 1)); SP <- SP + 1`. -/
def execRet (s : State) : Result :=
  if s.sp = 255 then raise .stackUnderflow 0 s
  else .next ((s.setPc (zext9 (s.readMem s.sp))).setSp (s.sp + 1))

end Sys2Proof.Machine
end

