-- ==== Sys2Proof/Machine/LoadPrint.lean ====
section
/-!
DEFINITION. LDI and PRN (spec/41_ldi_prn.md).
-/

namespace Sys2Proof.Machine

/-- LDI (R120): `x[a] <- imm; pc <- pc + 3`. -/
def execLdi (a imm : Byte) (s : State) : Result :=
  withReg a s fun r => .next ((s.writeReg r imm).advance 3)

/-- PRN (R121): `Out(x[a]); pc <- pc + 2`. -/
def execPrn (a : Byte) (s : State) : Result :=
  withReg a s fun r => .next ((s.emit (s.readReg r)).advance 2)

end Sys2Proof.Machine
end

