-- ==== Sys2Proof/Machine/Stack.lean ====
section
/-!
DEFINITION. PUSH and POP (spec/43_stack.md). The statements of each rule run in the order written, each seeing the ones
before it (spec/00_scope.md rule R12), which matters where the operand is R7 (log 13).
-/

namespace Sys2Proof.Machine

/-- PUSH (R151): `if SP = 0: raise StackOverflow(0); SP <- SP - 1; MemWrite(SP, 1, x[a]); pc <- pc + 2`. -/
def execPush (a : Byte) (s : State) : Result :=
  withReg a s fun r =>
    match s.pushAddress with
    | none => raise .stackOverflow 0 s
    | some top =>
      let s1 := s.setSp top
      .next ((s1.writeMem top (s1.readReg r)).advance 2)

/-- POP (R152): `x[a] <- v` with `v` the byte at SP, then `SP <- SP + 1` evaluated after it; `StackUnderflow` when that
increment would give 256. -/
def execPop (a : Byte) (s : State) : Result :=
  withReg a s fun r =>
    let s1 := s.writeReg r (s.readMem s.sp)
    if s1.sp = 255 then raise .stackUnderflow 0 s
    else .next ((s1.setSp (s1.sp + 1)).advance 2)

end Sys2Proof.Machine
end

