-- ==== Sys2Proof/Machine/System.lean ====
section
/-!
DEFINITION. NOP and HLT (spec/45_nop_hlt.md).
-/

namespace Sys2Proof.Machine

/-- NOP (R170): `pc <- pc + 1`. -/
def execNop (s : State) : Result := .next (s.advance 1)

/-- HLT (R171): `run_state <- HALTED`; the pc keeps the address of the HLT byte (log 16). -/
def execHlt (s : State) : Result := .next s.halt

end Sys2Proof.Machine
end

