-- ==== Sys2Proof/Syntax.lean ====
section
/-!
DEFINITION. The twelve instructions of spec/opcode_table.json and spec/30_encoding.md rules R81 to R85. A register
operand is held as the WHOLE operand byte, as R82 has it ("The byte is not masked to its low three bits"): whether it
names a register is a check of the instruction (R106), stated in Sys2Proof/WellFormed.lean and made when the
instruction runs (log 7).
-/

namespace Sys2Proof

/-- An instruction with its operand bytes: `a` at pc + 1, `b` or the immediate at pc + 2 (R13, R81). -/
inductive Instr where
  /-- LDI, format RI (R120). -/
  | ldi (a imm : Byte)
  /-- PRN, format R (R121). -/
  | prn (a : Byte)
  /-- MUL, format RR (R131). -/
  | mul (a b : Byte)
  /-- ADD, format RR (R132). -/
  | add (a b : Byte)
  /-- SUB, format RR (R133). -/
  | sub (a b : Byte)
  /-- DIV, format RR (R134). -/
  | div (a b : Byte)
  /-- PUSH, format R (R151). -/
  | push (a : Byte)
  /-- POP, format R (R152). -/
  | pop (a : Byte)
  /-- CALL, format R (R160). -/
  | call (a : Byte)
  /-- RET, format Z (R161). -/
  | ret
  /-- NOP, format Z (R170). -/
  | nop
  /-- HLT, format Z (R171). -/
  | hlt
  deriving DecidableEq, Repr

/-- The mnemonic alone: what the opcode byte selects (R80). -/
inductive Opcode where
  | ldi | prn | mul | add | sub | div | push | pop | call | ret | nop | hlt
  deriving DecidableEq, Repr

/-- The four formats of R81. -/
inductive Format where
  /-- no operand -/
  | z
  /-- one register -/
  | r
  /-- two registers -/
  | rr
  /-- register and immediate -/
  | ri
  deriving DecidableEq, Repr

/-- Column "format" of R85. -/
def Opcode.format : Opcode → Format
  | .ldi => .ri
  | .prn => .r
  | .mul => .rr
  | .add => .rr
  | .sub => .rr
  | .div => .rr
  | .push => .r
  | .pop => .r
  | .call => .r
  | .ret => .z
  | .nop => .z
  | .hlt => .z

/-- How many operand bytes a format has (R81). -/
def Format.operandCount : Format → Nat
  | .z => 0
  | .r => 1
  | .rr => 2
  | .ri => 2

/-- The length of an instruction, known from the opcode alone: 1 plus the operand count (R84). -/
def Opcode.length (op : Opcode) : Nat := 1 + op.format.operandCount

/-- The mnemonic of an instruction. -/
def Instr.opcode : Instr → Opcode
  | .ldi _ _ => .ldi
  | .prn _ => .prn
  | .mul _ _ => .mul
  | .add _ _ => .add
  | .sub _ _ => .sub
  | .div _ _ => .div
  | .push _ => .push
  | .pop _ => .pop
  | .call _ => .call
  | .ret => .ret
  | .nop => .nop
  | .hlt => .hlt

/-- The operand bytes in the order they stand in memory (R81, R92). -/
def Instr.operands : Instr → List Byte
  | .ldi a imm => [a, imm]
  | .prn a => [a]
  | .mul a b => [a, b]
  | .add a b => [a, b]
  | .sub a b => [a, b]
  | .div a b => [a, b]
  | .push a => [a]
  | .pop a => [a]
  | .call a => [a]
  | .ret => []
  | .nop => []
  | .hlt => []

/-- The operand bytes that name registers, in the order they are checked (R104 column "register operands", R106).
The immediate of LDI is not one of them. -/
def Instr.registerOperands : Instr → List Byte
  | .ldi a _ => [a]
  | .prn a => [a]
  | .mul a b => [a, b]
  | .add a b => [a, b]
  | .sub a b => [a, b]
  | .div a b => [a, b]
  | .push a => [a]
  | .pop a => [a]
  | .call a => [a]
  | .ret => []
  | .nop => []
  | .hlt => []

/-- The operand byte that names register `r` (R82). -/
def Reg.byte (r : Reg) : Byte := BitVec.ofNat 8 r.val

end Sys2Proof
end

