-- ==== Sys2Proof/WellFormed.lean ====
section
/-!
DEFINITION. Which instructions are well formed: every operand byte that names a register is 0..7
(spec/30_encoding.md rule R82, spec/40_execution_cycle.md rule R106). Every immediate is well formed (R90).
-/

namespace Sys2Proof

/-- A register operand byte names a register (R82). -/
def validRegByte (n : Byte) : Bool := n.toNat < 8

/-- Every register operand names a register. An instruction that fails this check still has a meaning: it raises
`OutOfBounds` (R106). -/
def Instr.wellFormed (i : Instr) : Bool := i.registerOperands.all validRegByte

end Sys2Proof
end

