-- ==== Sys2Proof/Decode.lean ====
section
/-!
DEFINITION. The decoder and the encoder of spec/30_encoding.md: decode is a lookup of the whole opcode byte in a table
(R80, R103), then as many operand bytes as the row has (R84, R105). Both are written over any opcode assignment, since
R87 makes the twelve bytes configuration; `decode` and `encode` use the assignment of this hardware.
-/

namespace Sys2Proof

/-- The opcode bytes of this hardware (R85). LDI, PRN, ADD and HLT are given by the spec's source (R86); the other
eight are PRESUMED, the published LS-8 values as the spec's default (R87; log 4). -/
def defaultOpcodes : OpcodeBytes where
  ldi  := 0x82
  prn  := 0x47
  mul  := 0xA2
  add  := 0xA0
  sub  := 0xA1
  div  := 0xA3
  push := 0x45
  pop  := 0x46
  call := 0x50
  ret  := 0x11
  nop  := 0x00
  hlt  := 0x01

/-- The opcode byte of a mnemonic. -/
def OpcodeBytes.byte (t : OpcodeBytes) : Opcode → Byte
  | .ldi => t.ldi
  | .prn => t.prn
  | .mul => t.mul
  | .add => t.add
  | .sub => t.sub
  | .div => t.div
  | .push => t.push
  | .pop => t.pop
  | .call => t.call
  | .ret => t.ret
  | .nop => t.nop
  | .hlt => t.hlt

/-- The dispatch table: one row per instruction, in the order of R104. -/
def OpcodeBytes.rows (t : OpcodeBytes) : List (Byte × Opcode) :=
  [(t.ldi, .ldi), (t.prn, .prn), (t.mul, .mul), (t.add, .add), (t.sub, .sub), (t.div, .div),
   (t.push, .push), (t.pop, .pop), (t.call, .call), (t.ret, .ret), (t.nop, .nop), (t.hlt, .hlt)]

/-- The row whose opcode byte equals the byte fetched, if there is one (R103). -/
def OpcodeBytes.lookup (t : OpcodeBytes) (ir : Byte) : Option Opcode :=
  (t.rows.find? (fun row => row.1 == ir)).map (fun row => row.2)

/-- Why bytes are not an instruction. -/
inductive DecodeError where
  /-- there is no opcode byte -/
  | noOpcode
  /-- the opcode byte matches no row (R89) -/
  | unknownOpcode (ir : Byte)
  /-- the operand byte at this offset from the opcode is not there (R105) -/
  | missingOperand (offset : Nat)
  deriving DecidableEq, Repr

/-- One operand byte, and what follows the instruction. -/
def takeOne (mk : Byte → Instr) : List Byte → Except DecodeError (Instr × List Byte)
  | [] => .error (.missingOperand 1)
  | a :: rest => .ok (mk a, rest)

/-- Two operand bytes, the first checked before the second (R107), and what follows the instruction. -/
def takeTwo (mk : Byte → Byte → Instr) : List Byte → Except DecodeError (Instr × List Byte)
  | [] => .error (.missingOperand 1)
  | [_] => .error (.missingOperand 2)
  | a :: b :: rest => .ok (mk a b, rest)

/-- The operands of a decoded opcode, exactly as many as its row has (R105). -/
def Opcode.takeOperands (op : Opcode) (bytes : List Byte) : Except DecodeError (Instr × List Byte) :=
  match op with
  | .ldi => takeTwo .ldi bytes
  | .prn => takeOne .prn bytes
  | .mul => takeTwo .mul bytes
  | .add => takeTwo .add bytes
  | .sub => takeTwo .sub bytes
  | .div => takeTwo .div bytes
  | .push => takeOne .push bytes
  | .pop => takeOne .pop bytes
  | .call => takeOne .call bytes
  | .ret => .ok (.ret, bytes)
  | .nop => .ok (.nop, bytes)
  | .hlt => .ok (.hlt, bytes)

/-- The instruction at the head of a list of bytes and the bytes after it, under an opcode assignment. A byte that
matches no row has no length, so nothing after it is looked at (R84, R89). -/
def decodeWith (t : OpcodeBytes) : List Byte → Except DecodeError (Instr × List Byte)
  | [] => .error .noOpcode
  | ir :: rest =>
    match t.lookup ir with
    | none => .error (.unknownOpcode ir)
    | some op => op.takeOperands rest

/-- The decoder of this hardware. -/
def decode (bytes : List Byte) : Except DecodeError (Instr × List Byte) := decodeWith defaultOpcodes bytes

/-- The bytes of an instruction under an opcode assignment: the opcode byte at the lowest address, then the operands
(R53, R81). -/
def encodeWith (t : OpcodeBytes) (i : Instr) : List Byte := t.byte i.opcode :: i.operands

/-- The encoder of this hardware. -/
def encode (i : Instr) : List Byte := encodeWith defaultOpcodes i

/-- The longest instruction, in bytes (R80). -/
def maxInstrLength : Nat := 3

/-- The low `nbits` bits of `w` as the bytes of the longest instruction, the first byte from bits 7..0 (the numbering
of spec/opcode_table.json); the bits above `nbits` are 0. -/
def tableWordBytes (nbits w : Nat) : List Byte :=
  let v := w % 2 ^ nbits
  [BitVec.ofNat 8 v, BitVec.ofNat 8 (v / 256), BitVec.ofNat 8 (v / 65536)]

/-- What the decoder reads from a word of spec/opcode_table.json. -/
def decodeTableWord (nbits w : Nat) : Option Instr :=
  match decode (tableWordBytes nbits w) with
  | .ok (i, _) => some i
  | .error _ => none

end Sys2Proof
end

