-- ==== Sys2Proof/Machine/Fetch.lean ====
section
/-!
DEFINITION. Opcode fetch, decode and operand fetch (spec/40_execution_cycle.md rule R101 steps 1 to 3). The bytes handed
to the decoder are those at pc, pc + 1 and pc + 2 that lie inside memory; the decoder takes the ones the instruction
has, so a byte it does not have raises nothing (R105; log 14), and a list that is too short says which fetch address is
above 255.
-/

namespace Sys2Proof.Machine

/-- The bytes from pc up, at most as many as the longest instruction, none from above 255. -/
def State.fetchBytes (s : State) : List Byte := s.mem.bytesFrom s.pc.toNat maxInstrLength

/-- The fault of a fetch that gives no instruction (R102, R103, R105): its code and its info. -/
def fetchFault (pc : PcWord) : DecodeError → FaultCode × PcWord
  | .noOpcode => (.outOfBounds, pc)
  | .unknownOpcode ir => (.unknownOpcode, zext9 ir)
  | .missingOperand offset => (.outOfBounds, pc + BitVec.ofNat 9 offset)

/-- The instruction at the pc, or the fault its fetch raises. -/
def State.fetch (s : State) : Except (FaultCode × PcWord) Instr :=
  match decode s.fetchBytes with
  | .ok (i, _) => .ok i
  | .error e => .error (fetchFault s.pc e)

/-- The bytes of `bytes` that fall inside memory, stored from `addr` up. -/
def Memory.placeBytes (m : Memory) (addr : Nat) (bytes : List Byte) : Memory :=
  m.writeBytes addr (bytes.take (Config.memSize - addr))

end Sys2Proof.Machine
end

