-- ==== Sys2Proof/Machine/Step.lean ====
section
/-!
DEFINITION. One step of the core (spec/40_execution_cycle.md rules R100 and R101).
-/

namespace Sys2Proof.Machine

/-- One step: fetch and execute one instruction, or raise one fault (R101). A core that is HALTED, or that the host has
not started, takes no step: nothing changes (R100, R232; log 1). -/
def step (s : State) : Host.Outcome State Fault Refusal :=
  if s.Stepping then
    match s.fetch with
    | .ok i => exec i s
    | .error (code, info) => raise code info s
  else .next s

/-- `s` with the instruction whose bits are `w` stored at the pc and the core started and RUNNING, so that the next step
runs it: the stand-in for the host's `loadProgram` and `run` (log 2). Bytes that would lie above 255 are not stored. -/
def State.withFetchWord (s : State) (nbits w : Nat) : State :=
  { s with mem := s.mem.placeBytes s.pc.toNat (tableWordBytes nbits w), started := true, runState := .running }

end Sys2Proof.Machine
end

