-- ==== Sys2Proof/Machine/Text.lean ====
section
/-!
DEFINITION. Two text forms the spec fixes for tests, outside the hardware: the output as lines of decimal numerals
(spec/41_ldi_prn.md rule R122) and the assembly of one instruction (spec/30_encoding.md rule R92). As lists of
characters, so that the kernel can evaluate them.
-/

namespace Sys2Proof.Machine

/-- The character of a decimal digit. -/
def digitChar (d : Nat) : Char := Char.ofNat (48 + d % 10)

/-- The shortest decimal numeral of a byte: no sign, no leading zeros, `0` for zero (R122). -/
def decimal (v : Byte) : List Char :=
  let n := v.toNat
  if n < 10 then [digitChar n]
  else if n < 100 then [digitChar (n / 10), digitChar n]
  else [digitChar (n / 100), digitChar (n / 10), digitChar n]

/-- The rendering of the output sequence: each value as its numeral, then one line feed (R122). -/
def renderOut (out : List Byte) : List Char := out.flatMap fun v => decimal v ++ ['\n']

/-- A register in assembly: `R` and its index 0 to 7 (R92). DESIGN CHOICE: R92 writes no operand byte 8..255, which names no
register; the model writes it `R8` to `R255` (log 22). -/
def asmReg (a : Byte) : List Char := 'R' :: decimal a

/-- The assembly of an instruction: mnemonic in capitals, a space, operands separated by a comma without a space, as
the scenario of the spec's source has it, the destination first (R92). -/
def assembly : Instr → List Char
  | .ldi a imm => ['L', 'D', 'I', ' '] ++ asmReg a ++ [','] ++ decimal imm
  | .prn a => ['P', 'R', 'N', ' '] ++ asmReg a
  | .mul a b => ['M', 'U', 'L', ' '] ++ asmReg a ++ [','] ++ asmReg b
  | .add a b => ['A', 'D', 'D', ' '] ++ asmReg a ++ [','] ++ asmReg b
  | .sub a b => ['S', 'U', 'B', ' '] ++ asmReg a ++ [','] ++ asmReg b
  | .div a b => ['D', 'I', 'V', ' '] ++ asmReg a ++ [','] ++ asmReg b
  | .push a => ['P', 'U', 'S', 'H', ' '] ++ asmReg a
  | .pop a => ['P', 'O', 'P', ' '] ++ asmReg a
  | .call a => ['C', 'A', 'L', 'L', ' '] ++ asmReg a
  | .ret => ['R', 'E', 'T']
  | .nop => ['N', 'O', 'P']
  | .hlt => ['H', 'L', 'T']

end Sys2Proof.Machine
end

