-- ==== Sys2Proof/Machine/Flags.lean ====
section
/-!
DEFINITION. The core has no flags, no condition codes and no flag computation (spec/10_state.md rule R30). What stands
here are the bit encodings of its status registers as the status port shows them (R31 to R33, R181, R222).
-/

namespace Sys2Proof.Machine

/-- `run_state` as one bit: RUNNING 0, HALTED 1 (R31). -/
def RunState.bits : RunState → BitVec 1
  | .running => 0
  | .halted => 1

/-- `fault_code` as three bits (R32, R181); 6 and 7 are never written. -/
def FaultCode.bits : FaultCode → BitVec 3
  | .none => 0
  | .outOfBounds => 1
  | .unknownOpcode => 2
  | .divisionByZero => 3
  | .stackOverflow => 4
  | .stackUnderflow => 5

end Sys2Proof.Machine
end

