-- ==== Sys2Proof/Machine/Ports.lean ====
section
/-!
DEFINITION. The abstract ports of the block (spec/70_reset_and_hazards.md rules R220 to R223) as functions of the state
(log 12). The memory port and the register port are what the host accessors of Sys2Proof/Machine/HostOps.lean use while
the core is not stepping.
-/

namespace Sys2Proof.Machine

/-- The status port (R222). -/
structure StatusPort where
  runState  : BitVec 1
  faultCode : BitVec 3
  faultInfo : BitVec 9
  pc        : BitVec 9
  deriving DecidableEq, Repr

/-- What the status port shows (R222). -/
def State.statusPort (s : State) : StatusPort where
  runState := s.runState.bits
  faultCode := s.faultCode.bits
  faultInfo := s.faultInfo
  pc := s.pc

/-- The memory port, reading (R220). -/
def State.memPortRead (s : State) (addr : BitVec 8) : BitVec 8 := s.readMem addr

/-- The memory port, writing (R220). -/
def State.memPortWrite (s : State) (addr data : BitVec 8) : State := s.writeMem addr data

/-- The register access port, reading (R223): a 3-bit index is always a register. -/
def State.regPortRead (s : State) (index : BitVec 3) : BitVec 8 := s.readReg index.toFin

/-- The register access port, writing (R223). -/
def State.regPortWrite (s : State) (index : BitVec 3) (data : BitVec 8) : State := s.writeReg index.toFin data

/-- The output port (R221): the byte presented with the strobe between two states, if one was. -/
def outputPort (before after : State) : Option (BitVec 8) :=
  if after.out.length = before.out.length + 1 then after.out.getLast? else none

end Sys2Proof.Machine
end

