-- ==== Sys2Proof/Machine/HostOps.lean ====
section
/-!
DEFINITION. The host's operations (spec/70_reset_and_hazards.md rules R210 to R217), allowed exactly while the core is
not stepping (R225, R232; spec/20_memory.md R66). Addresses, indices and values are integers, since a software caller can
present any (R215: the model "refuses it (validates) and does not truncate"). An error goes to the host and changes
nothing (spec/60_exceptions.md rule R195).
-/

namespace Sys2Proof.Machine

/-- What a host operation fails with. -/
inductive HostError where
  /-- the core is stepping: the host has no operation but to wait (R225) -/
  | busy
  /-- the accessor's own OutOfBounds: an address or a register index outside its range (R214 to R216) -/
  | outOfBounds
  /-- `loadProgram` with more than 256 bytes (R213) -/
  | programTooLong
  /-- a value outside 0..255 (R215, R216) -/
  | valueOutOfRange
  deriving DecidableEq, Repr

/-- The operation, or `busy` while the core is stepping (R232). -/
def whenIdle {α : Type} (s : State) (k : Except HostError α) : Except HostError α :=
  if s.Stepping then .error .busy else k

/-- A caller's integer as a byte, if it is one (R6). -/
def byteOfInt (v : Int) : Option Byte := if 0 ≤ v ∧ v ≤ 255 then some (BitVec.ofInt 8 v) else none

/-- A caller's integer as a register index, if it is one (R216). -/
def indexOfInt (r : Int) : Option (BitVec 3) := if 0 ≤ r ∧ r ≤ 7 then some (BitVec.ofInt 3 r) else none

/-- A checked argument, or the error. -/
def orFail {α : Type} (e : HostError) : Option α → Except HostError α
  | some v => .ok v
  | none => .error e

/-- `loadProgram(bytes)` (R213): the bytes to addresses 0, 1, 2 and on; every other cell is kept. -/
def loadProgram (program : List Byte) (s : State) : Except HostError State :=
  whenIdle s <|
    if program.length > Config.memSize then .error .programTooLong
    else .ok { s with mem := s.mem.writeBytes loadBase program }

/-- `readMemory(address)` (R214). -/
def readMemory (address : Int) (s : State) : Except HostError Byte :=
  whenIdle s <| (orFail .outOfBounds (byteOfInt address)).map s.memPortRead

/-- `writeMemory(address, value)` (R215); the address is checked before the value (log 9). -/
def writeMemory (address value : Int) (s : State) : Except HostError State :=
  whenIdle s <| do
    let addr ← orFail .outOfBounds (byteOfInt address)
    let v ← orFail .valueOutOfRange (byteOfInt value)
    pure (s.memPortWrite addr v)

/-- `readRegister(r)` (R216). -/
def readRegister (r : Int) (s : State) : Except HostError Byte :=
  whenIdle s <| (orFail .outOfBounds (indexOfInt r)).map s.regPortRead

/-- `writeRegister(r, v)` (R216); the index is checked before the value (log 9). -/
def writeRegister (r value : Int) (s : State) : Except HostError State :=
  whenIdle s <| do
    let index ← orFail .outOfBounds (indexOfInt r)
    let v ← orFail .valueOutOfRange (byteOfInt value)
    pure (s.regPortWrite index v)

/-- `run`, the input `go` (R217, R219): the core may step from here on; nothing else is written. On a HALTED core it
does nothing (log 11). -/
def run (s : State) : Except HostError State :=
  whenIdle s <|
    match s.runState with
    | .running => .ok { s with started := true }
    | .halted => .ok s

/-- The input `reset` (R210, R218): like every move of the host only while the core is not stepping, so it is no cancel
(R225; log 10). -/
def resetInput (s : State) : Except HostError State := whenIdle s (.ok State.reset)

/-- What the host can tell from a state (R196). -/
inductive RunResult where
  /-- not HALTED: `run` has not returned -/
  | notHalted
  /-- HLT was executed at address `pc` -/
  | cleanHalt (pc : PcWord)
  /-- the instruction or the fetch at `pc` raised the fault -/
  | faultHalt (code : FaultCode) (info pc : PcWord)
  deriving DecidableEq, Repr

/-- The result `run` returns when the core is HALTED (R196, R217). -/
def State.result (s : State) : RunResult :=
  match s.runState with
  | .running => .notHalted
  | .halted => if s.faultCode = .none then .cleanHalt s.pc else .faultHalt s.faultCode s.faultInfo s.pc

/-- The host's operations as one type. -/
inductive HostCall where
  | reset
  | loadProgram (program : List Byte)
  | readMemory (address : Int)
  | writeMemory (address value : Int)
  | readRegister (r : Int)
  | writeRegister (r value : Int)
  | run
  deriving DecidableEq, Repr

/-- What a host operation answers. -/
inductive HostReply where
  | done
  | value (v : Byte)
  | failed (e : HostError)
  deriving DecidableEq, Repr

/-- The answer and the state after an operation that writes. -/
def HostReply.ofWrite (s : State) : Except HostError State → HostReply × State
  | .ok t => (.done, t)
  | .error e => (.failed e, s)

/-- The answer and the state after an operation that reads. -/
def HostReply.ofRead (s : State) : Except HostError Byte → HostReply × State
  | .ok v => (.value v, s)
  | .error e => (.failed e, s)

/-- One host operation: its answer and the state after it. -/
def hostCall (c : HostCall) (s : State) : HostReply × State :=
  match c with
  | .reset => HostReply.ofWrite s (resetInput s)
  | .loadProgram program => HostReply.ofWrite s (Sys2Proof.Machine.loadProgram program s)
  | .readMemory address => HostReply.ofRead s (Sys2Proof.Machine.readMemory address s)
  | .writeMemory address value => HostReply.ofWrite s (Sys2Proof.Machine.writeMemory address value s)
  | .readRegister r => HostReply.ofRead s (Sys2Proof.Machine.readRegister r s)
  | .writeRegister r value => HostReply.ofWrite s (Sys2Proof.Machine.writeRegister r value s)
  | .run => HostReply.ofWrite s (Sys2Proof.Machine.run s)

end Sys2Proof.Machine
end

