-- ==== Sys2Proof/Safety.lean ====
section
/-!
DEFINITION. The terms in which claims about the machine are made: the invariants of spec/40_execution_cycle.md rule
R110, what a recorded fault may hold (spec/60_exceptions.md rules R181 and R182), and the three outcomes of a run (R109).
-/

namespace Sys2Proof.Machine

/-- The ranges of `fault_info` by cause (R33, R181, R182). A register index above 7 and an address above 255 are told
apart by the value. -/
def FaultCode.infoInRange (info : PcWord) : FaultCode → Prop
  | .none => info = 0
  | .outOfBounds => 8 ≤ info.toNat ∧ info.toNat ≤ 258
  | .unknownOpcode => info.toNat ≤ 255
  | .divisionByZero => info = 0
  | .stackOverflow => info = 0
  | .stackUnderflow => info = 0

/-- What holds of every state a run reaches (R110), with the model's canonical form of memory and the ranges of the
fault detail. That registers and cells hold 0..255 is their type. -/
structure State.Inv (s : State) : Prop where
  pcBound : s.pc.toNat ≤ 258
  runningNoFault : s.runState = .running → s.faultCode = .none
  infoRange : s.faultCode.infoInRange s.faultInfo
  memCanonical : s.mem.wf = true

/-- A fault that `s` records was the true one: with the record taken away, the same step raises the same fault again.
It says that the fault left everything else as the step found it (R188). -/
def State.FaultTruthful (s : State) : Prop :=
  s.faultCode ≠ .none →
    step { s with runState := .running, faultCode := .none, faultInfo := 0 } = .next s

/-- A clean halt was HLT's: the byte at the pc is HLT's opcode byte (R196). -/
def State.CleanHaltAtHlt (s : State) : Prop :=
  s.runState = .halted → s.faultCode = .none →
    s.pc.toNat < Config.memSize ∧ s.mem.read s.pc.toNat = defaultOpcodes.hlt

/-- `k` steps from `s` end in `t`. -/
def Reaches (k : Nat) (s t : State) : Prop := Host.Core.run Sys2Proof.core k s = .next t

/-- The run from `s` ends in a clean halt (R109). -/
def HaltsClean (s : State) : Prop := ∃ k t, Reaches k s t ∧ t.runState = .halted ∧ t.faultCode = .none

/-- The run from `s` ends in a fault halt (R109). -/
def HaltsWithFault (s : State) : Prop := ∃ k t, Reaches k s t ∧ t.runState = .halted ∧ t.faultCode ≠ .none

/-- The run from `s` never halts (R109). -/
def NeverHalts (s : State) : Prop := ∀ k, ∃ t, Reaches k s t ∧ t.runState = .running

/-- The fetch of an operand byte the instruction has, at an address above 255 (R105): the first such address is always
256, since the opcode byte itself is inside memory. The opcode byte is named, not its value. -/
def OperandFetchFaults (op : Opcode) : Prop :=
  ∀ s : State, s.Stepping → s.pc.toNat ≤ 255 → s.mem.read s.pc.toNat = defaultOpcodes.byte op →
    256 < s.pc.toNat + op.length → step s = .next (s.recordFault .outOfBounds 256)

/-- An instruction without operands runs at every address of memory, 255 included: nothing is fetched after its opcode
byte (R105). -/
def RunsAtEveryAddress (i : Instr) : Prop :=
  ∀ s : State, s.Stepping → s.pc.toNat ≤ 255 → s.mem.read s.pc.toNat = defaultOpcodes.byte i.opcode → step s = exec i s

/-- The three status registers are as before, or the instruction did nothing but raise a fault (R187). -/
def StatusKeptOrFaultOnly (s t : State) : Prop :=
  (t.runState = s.runState ∧ t.faultCode = s.faultCode ∧ t.faultInfo = s.faultInfo) ∨
  ∃ code info, code ≠ .none ∧ t = s.recordFault code info

/-- The same instruction executed `n` times, wherever the pc is: the stack laws of spec/43_stack.md rule R153. -/
def execTimes (i : Instr) : Nat → State → Result
  | 0, s => .next s
  | n + 1, s =>
    match exec i s with
    | .next t => execTimes i n t
    | other => other

end Sys2Proof.Machine
end

