-- ==== Sys2Proof/Certificates/Slice0/Obligations.lean ====
section
/-!
DEFINITION. The statements about the model. `s.recordFault code info` is `s` with `run_state` HALTED and the two fault
registers set, nothing else (R187). `r.byte` is the operand byte that names register `r`. "The spec's own decision" in a
docstring names a choice that spec/92_eei_decisions.md marks as the spec's, not its source's.
-/

open Sys2Proof Sys2Proof.Machine

/-! ### Reset, boot and the host -/

/-- The state after reset, every field (spec/10_state.md section 7). The status registers, the empty output and the
clear `started` are the spec's own decisions D10, D16, D30; `SP_INIT` is D3 (log 5). -/
def Obligations.ResetValues : Prop :=
  (∀ r : Reg, r ≠ 7 → State.reset.x[r] = 0) ∧ State.reset.x[7] = 0xF4 ∧ State.reset.pc = 0 ∧
  (∀ addr, State.reset.mem.read addr = 0) ∧ State.reset.runState = .running ∧ State.reset.faultCode = .none ∧
  State.reset.faultInfo = 0 ∧ State.reset.out = [] ∧ State.reset.started = false

/-- The invariant of spec/40_execution_cycle.md section 2, with the model's canonical form of memory, holds after
reset. -/
def Obligations.ResetSatisfiesInvariant : Prop := State.reset.Inv

/-- R211: whatever program the host loads after reset, after `run` the first step executes the instruction whose bytes
stand at address 0. -/
def Obligations.FirstInstructionIsAtAddressZero : Prop :=
  ∀ (program : List Byte) (i : Instr) (rest : List Byte), program.length ≤ 256 → decode program = .ok (i, rest) →
    ∃ s t, loadProgram program State.reset = .ok s ∧ run s = .ok t ∧ t.pc = 0 ∧ step t = exec i t

/-- What `loadProgram` writes and when it fails (spec/70_reset_and_hazards.md section 3; the spec's own decision
D17). -/
def Obligations.LoadProgramWritesItsBytesOnly : Prop :=
  ∀ (program : List Byte) (s : State), ¬ s.Stepping →
    (program.length ≤ 256 → s.mem.wf = true → ∃ t, loadProgram program s = .ok t ∧ t = { s with mem := t.mem } ∧
      ∀ addr, t.mem.read addr = program.getD addr (s.mem.read addr)) ∧
    (256 < program.length → loadProgram program s = .error .programTooLong)

/-- The host's memory accessors (spec/70_reset_and_hazards.md section 3): a byte written is read back, every other cell
is kept, an address outside 0..255 fails, a value outside 0..255 is refused and not truncated (the spec's own decision
D18). That the address is reported before the value is log 9. -/
def Obligations.HostMemoryAccess : Prop :=
  ∀ (s : State) (address value : Int), ¬ s.Stepping →
    (0 ≤ address ∧ address ≤ 255 → readMemory address s = .ok (s.mem.read address.toNat)) ∧
    (0 ≤ address ∧ address ≤ 255 → 0 ≤ value ∧ value ≤ 255 → s.mem.wf = true →
      ∃ t, writeMemory address value s = .ok t ∧ t = { s with mem := t.mem } ∧
        readMemory address t = .ok (BitVec.ofInt 8 value) ∧
        ∀ other : Nat, (other : Int) ≠ address → t.mem.read other = s.mem.read other) ∧
    (¬ (0 ≤ address ∧ address ≤ 255) →
      readMemory address s = .error .outOfBounds ∧ writeMemory address value s = .error .outOfBounds) ∧
    (0 ≤ address ∧ address ≤ 255 → ¬ (0 ≤ value ∧ value ≤ 255) → writeMemory address value s = .error .valueOutOfRange)

/-- The host's register accessors (spec/70_reset_and_hazards.md section 3): a value written is read back,
`writeRegister` changes that one register, an index outside 0..7 fails, a value outside 0..255 is refused (the spec's
own decision D18; that the index is reported before the value is log 9). -/
def Obligations.HostRegisterRoundTrip : Prop :=
  ∀ (s : State) (value : Int), ¬ s.Stepping →
    (∀ r : Reg, readRegister r.val s = .ok s.x[r]) ∧
    (∀ r : Reg, 0 ≤ value ∧ value ≤ 255 → ∃ t, writeRegister r.val value s = .ok t ∧
      readRegister r.val t = .ok (BitVec.ofInt 8 value) ∧ t = { s with x := s.x.set r (BitVec.ofInt 8 value) }) ∧
    (∀ r : Reg, ¬ (0 ≤ value ∧ value ≤ 255) → writeRegister r.val value s = .error .valueOutOfRange) ∧
    (∀ index : Int, ¬ (0 ≤ index ∧ index ≤ 7) →
      readRegister index s = .error .outOfBounds ∧ writeRegister index value s = .error .outOfBounds)

/-- `run` starts the core and initialises nothing; on a halted core it does nothing (spec/70_reset_and_hazards.md
section 3; the spec's own decisions D16 and D30; log 11). -/
def Obligations.RunOnlyStartsTheCore : Prop :=
  ∀ s : State, ¬ s.Stepping →
    (s.runState = .running → run s = .ok { s with started := true }) ∧ (s.runState = .halted → run s = .ok s)

/-- While the core is stepping every host operation is answered `busy`, and otherwise none is
(spec/70_reset_and_hazards.md section 4; the spec's own decisions D18 and D30). That reset is among them is read from
"except to wait" and "there is no cancel", log 10. -/
def Obligations.HostActsOnlyWhileNotStepping : Prop :=
  ∀ (c : HostCall) (s : State), (hostCall c s).1 = .failed .busy ↔ s.Stepping

/-- A host operation that fails leaves all of the state as it was (spec/60_exceptions.md section 4; the spec's own
decision D18). -/
def Obligations.FailedHostCallChangesNothing : Prop :=
  ∀ (c : HostCall) (s : State) (e : HostError), (hostCall c s).1 = .failed e → (hostCall c s).2 = s

/-- Every host operation keeps the invariant. -/
def Obligations.HostCallKeepsInvariant : Prop := ∀ (c : HostCall) (s : State), s.Inv → (hostCall c s).2.Inv

/-! ### Encoding -/

/-- Decoding the bytes of any instruction, well formed or not, with every operand byte at every value and whatever
follows it, gives it back, for EVERY pairwise distinct assignment of the twelve opcode bytes (spec/30_encoding.md
sections 1 and 3: the rules are independent of the eight presumed values, log 4). -/
def Obligations.DecodeOfEncodeIsTheInstruction : Prop :=
  ∀ (t : OpcodeBytes) (i : Instr) (rest : List Byte), t.Distinct →
    decodeWith t (encodeWith t i ++ rest) = .ok (i, rest)

/-- The other direction: bytes that decode are the encoding of what they decode to, then the rest. -/
def Obligations.DecodedBytesAreTheEncoding : Prop :=
  ∀ (t : OpcodeBytes) (bytes : List Byte) (i : Instr) (rest : List Byte),
    decodeWith t bytes = .ok (i, rest) → bytes = encodeWith t i ++ rest

/-- R86: the bytes of the source's scenario decode to the instructions it lists. -/
def Obligations.SourceScenarioDecodes : Prop :=
  decode [0x82, 0, 8] = .ok (.ldi 0 8, []) ∧ decode [0x82, 1, 9] = .ok (.ldi 1 9, []) ∧
  decode [0xA0, 0, 1] = .ok (.add 0 1, []) ∧ decode [0x47, 0] = .ok (.prn 0, []) ∧ decode [0x01] = .ok (.hlt, [])

/-- The eight opcode bytes that the spec supplies from general knowledge (spec/30_encoding.md section 3, the spec's own
decision D15; PRESUMED, log 4), each in a word written out bit by bit from spec/opcode_table.json. -/
def Obligations.PresumedOpcodesDecode : Prop :=
  decode [0b10100010, 3, 5] = .ok (.mul 3 5, []) ∧ decode [0b10100001, 3, 5] = .ok (.sub 3 5, []) ∧
  decode [0b10100011, 3, 5] = .ok (.div 3 5, []) ∧ decode [0b01000101, 6] = .ok (.push 6, []) ∧
  decode [0b01000110, 6] = .ok (.pop 6, []) ∧ decode [0b01010000, 6] = .ok (.call 6, []) ∧
  decode [0b00010001] = .ok (.ret, []) ∧ decode [0b00000000] = .ok (.nop, [])

/-- R89: the bytes that are none of the twelve (which are pairwise distinct, so the others are 244) raise
`UnknownOpcode` with the byte, wherever they stand, whatever follows them. The twelve are named, not their values
(eight of the values are presumed, log 4). -/
def Obligations.OtherBytesAreUnknownOpcodes : Prop :=
  (defaultOpcodes.bytes.length = 12 ∧ defaultOpcodes.bytes.Nodup) ∧
  ∀ s : State, s.Stepping → s.pc.toNat ≤ 255 → s.mem.read s.pc.toNat ∉ defaultOpcodes.bytes →
    step s = .next (s.recordFault .unknownOpcode ((s.mem.read s.pc.toNat).setWidth 9))

/-! ### The step -/

/-- When the bytes at the pc decode, a step of a core that is started and RUNNING is the meaning of the instruction, and
nothing is added around it (spec/40_execution_cycle.md section 1). -/
def Obligations.StepRunsTheDecodedInstruction : Prop :=
  ∀ (s : State) (i : Instr) (rest : List Byte), s.Stepping → decode s.fetchBytes = .ok (i, rest) → step s = exec i s

/-- The same said of the cells: when memory holds the instruction's bytes from the pc up and they end inside memory, a
step runs it; so a one-byte instruction at 255 and a two-byte one at 254 run (spec/40_execution_cycle.md section 1; the
spec's own decision D7, log 14). -/
def Obligations.StepRunsTheInstructionInMemory : Prop :=
  ∀ (s : State) (i : Instr), s.Stepping → s.pc.toNat + i.opcode.length ≤ 256 →
    (∀ k v, (encode i)[k]? = some v → s.mem.read (s.pc.toNat + k) = v) → step s = exec i s

/-- A core that is HALTED or not started changes nothing when stepped (spec/40_execution_cycle.md section 1,
spec/70_reset_and_hazards.md section 4). That such a step is written as an unchanged next state is the model's choice,
log 1. -/
def Obligations.CoreThatIsNotSteppingStaysAsItIs : Prop := ∀ s : State, ¬ s.Stepping → step s = .next s

/-- HALTED is absorbing, for any number of steps (spec/60_exceptions.md section 2; the spec's own decision D20). -/
def Obligations.HaltedIsAbsorbing : Prop := ∀ (k : Nat) (s : State), s.runState = .halted → Reaches k s s

/-- R102: the opcode is the byte at the pc; a pc above 255 raises `OutOfBounds(pc)`. -/
def Obligations.OpcodeFetch : Prop :=
  (∀ s : State, s.pc.toNat ≤ 255 → s.fetchBytes.head? = some (s.mem.read s.pc.toNat)) ∧
  (∀ s : State, s.Stepping → 255 < s.pc.toNat → step s = .next (s.recordFault .outOfBounds s.pc))

/-- R106: the first register operand byte above 7, `a` before `b`, raises `OutOfBounds` with that byte, before any
effect and before any other check of the instruction. -/
def Obligations.RegisterOperandsAreValidated : Prop :=
  (∀ (i : Instr) (s : State) (n : Byte), i.registerOperands.find? (fun n => 7 < n.toNat) = some n →
    exec i s = .next (s.recordFault .outOfBounds (n.setWidth 9))) ∧
  (∀ a b : Byte, (Instr.ldi a b).registerOperands = [a] ∧
    (Instr.prn a).registerOperands = [a] ∧ (Instr.push a).registerOperands = [a] ∧
    (Instr.pop a).registerOperands = [a] ∧ (Instr.call a).registerOperands = [a] ∧
    (Instr.mul a b).registerOperands = [a, b] ∧ (Instr.add a b).registerOperands = [a, b] ∧
    (Instr.sub a b).registerOperands = [a, b] ∧ (Instr.div a b).registerOperands = [a, b])

/-- Every step answers a next state: it completes an instruction, raises a fault, or is no step; the model never stops
(spec/40_execution_cycle.md section 1). The same holds of the meaning of every instruction. -/
def Obligations.EveryStepAnswersANextState : Prop :=
  (∀ s : State, ∃ t, step s = .next t) ∧ (∀ (i : Instr) (s : State), ∃ t, exec i s = .next t)

/-! ### The instructions -/

/-- R120, LDI: the effect, the faults and the encoding. -/
def Obligations.LdiLoadsTheImmediate : Prop :=
  (∀ (r : Reg) (imm : Byte) (s : State),
    exec (.ldi r.byte imm) s = .next { s with x := s.x.set r imm, pc := s.pc + 3 }) ∧
  (∀ (a imm : Byte) (s : State), 7 < a.toNat →
    exec (.ldi a imm) s = .next (s.recordFault .outOfBounds (a.setWidth 9))) ∧
  OperandFetchFaults .ldi ∧ (∀ a b : Byte, encode (.ldi a b) = [0x82, a, b])

/-- R121, PRN: the effect, the faults and the encoding. -/
def Obligations.PrnEmitsTheRegister : Prop :=
  (∀ (r : Reg) (s : State), exec (.prn r.byte) s = .next { s with out := s.out ++ [s.x[r]], pc := s.pc + 2 }) ∧
  (∀ (a : Byte) (s : State), 7 < a.toNat → exec (.prn a) s = .next (s.recordFault .outOfBounds (a.setWidth 9))) ∧
  OperandFetchFaults .prn ∧ (∀ a : Byte, encode (.prn a) = [0x47, a])

/-- R131, MUL: the product modulo 256, of the old values also where both operands are one register. The opcode byte
is the parameter `OPC_MUL`, whatever its value (its presumed default is log 4; so for SUB, DIV, RET and NOP below). -/
def Obligations.MulWritesTheProduct : Prop :=
  (∀ (ra rb : Reg) (s : State), exec (.mul ra.byte rb.byte) s =
    .next { s with x := s.x.set ra (BitVec.ofNat 8 (s.x[ra].toNat * s.x[rb].toNat % 256)), pc := s.pc + 3 }) ∧
  (∀ (a b : Byte) (s : State), 7 < a.toNat →
    exec (.mul a b) s = .next (s.recordFault .outOfBounds (a.setWidth 9))) ∧
  (∀ (ra : Reg) (b : Byte) (s : State), 7 < b.toNat →
    exec (.mul ra.byte b) s = .next (s.recordFault .outOfBounds (b.setWidth 9))) ∧
  OperandFetchFaults .mul ∧ (∀ (t : OpcodeBytes) (a b : Byte), encodeWith t (.mul a b) = [t.mul, a, b])

/-- R132, ADD: the sum modulo 256. -/
def Obligations.AddWritesTheSum : Prop :=
  (∀ (ra rb : Reg) (s : State), exec (.add ra.byte rb.byte) s =
    .next { s with x := s.x.set ra (BitVec.ofNat 8 ((s.x[ra].toNat + s.x[rb].toNat) % 256)), pc := s.pc + 3 }) ∧
  (∀ (a b : Byte) (s : State), 7 < a.toNat →
    exec (.add a b) s = .next (s.recordFault .outOfBounds (a.setWidth 9))) ∧
  (∀ (ra : Reg) (b : Byte) (s : State), 7 < b.toNat →
    exec (.add ra.byte b) s = .next (s.recordFault .outOfBounds (b.setWidth 9))) ∧
  OperandFetchFaults .add ∧ (∀ a b : Byte, encode (.add a b) = [0xA0, a, b])

/-- R133, SUB: the first minus the second, modulo 256 (R7: the remainder in 0..255 also of a negative number). -/
def Obligations.SubWritesTheDifference : Prop :=
  (∀ (ra rb : Reg) (s : State), exec (.sub ra.byte rb.byte) s =
    .next { s with
      x := s.x.set ra (BitVec.ofNat 8 (((s.x[ra].toNat : Int) - (s.x[rb].toNat : Int)) % 256).toNat)
      pc := s.pc + 3 }) ∧
  (∀ (a b : Byte) (s : State), 7 < a.toNat →
    exec (.sub a b) s = .next (s.recordFault .outOfBounds (a.setWidth 9))) ∧
  (∀ (ra : Reg) (b : Byte) (s : State), 7 < b.toNat →
    exec (.sub ra.byte b) s = .next (s.recordFault .outOfBounds (b.setWidth 9))) ∧
  OperandFetchFaults .sub ∧ (∀ (t : OpcodeBytes) (a b : Byte), encodeWith t (.sub a b) = [t.sub, a, b])

/-- R134, DIV: the quotient where the divisor is not zero; `DivisionByZero` for every dividend where it is. -/
def Obligations.DivWritesTheQuotientOrFaults : Prop :=
  (∀ (ra rb : Reg) (s : State), s.x[rb] ≠ 0 → exec (.div ra.byte rb.byte) s =
    .next { s with x := s.x.set ra (BitVec.ofNat 8 (s.x[ra].toNat / s.x[rb].toNat)), pc := s.pc + 3 }) ∧
  (∀ (ra rb : Reg) (s : State), s.x[rb] = 0 →
    exec (.div ra.byte rb.byte) s = .next (s.recordFault .divisionByZero 0)) ∧
  (∀ (a b : Byte) (s : State), 7 < a.toNat →
    exec (.div a b) s = .next (s.recordFault .outOfBounds (a.setWidth 9))) ∧
  (∀ (ra : Reg) (b : Byte) (s : State), 7 < b.toNat →
    exec (.div ra.byte b) s = .next (s.recordFault .outOfBounds (b.setWidth 9))) ∧
  OperandFetchFaults .div ∧ (∀ (t : OpcodeBytes) (a b : Byte), encodeWith t (.div a b) = [t.div, a, b])

/-- What the quotient is: the greatest multiple of the divisor not above the dividend (spec/42_alu.md section 3; the
spec's own decision D21). -/
def Obligations.DivQuotientIsTheFloor : Prop :=
  ∀ (ra rb : Reg) (s t : State), s.x[rb] ≠ 0 → exec (.div ra.byte rb.byte) s = .next t →
    t.x[ra].toNat * s.x[rb].toNat ≤ s.x[ra].toNat ∧ s.x[ra].toNat < (t.x[ra].toNat + 1) * s.x[rb].toNat

/-- PUSH (spec/43_stack.md section 2). With R7 the decremented SP is stored, the spec's own decision D12 (log 13); which
stack fault is which is D11 (log 17). -/
def Obligations.PushStoresBelowTheStackPointer : Prop :=
  (∀ (r : Reg) (s : State), r ≠ 7 → s.x[7] ≠ 0 → exec (.push r.byte) s =
    .next { s with x := s.x.set 7 (s.x[7] - 1), mem := s.mem.write (s.x[7].toNat - 1) s.x[r], pc := s.pc + 2 }) ∧
  (∀ s : State, s.x[7] ≠ 0 → exec (.push 7) s =
    .next { s with x := s.x.set 7 (s.x[7] - 1), mem := s.mem.write (s.x[7].toNat - 1) (s.x[7] - 1), pc := s.pc + 2 }) ∧
  (∀ (r : Reg) (s : State), s.x[7] = 0 → exec (.push r.byte) s = .next (s.recordFault .stackOverflow 0)) ∧
  (∀ (a : Byte) (s : State), 7 < a.toNat → exec (.push a) s = .next (s.recordFault .outOfBounds (a.setWidth 9))) ∧
  OperandFetchFaults .push

/-- POP (spec/43_stack.md section 2). With R7 the popped byte becomes SP and is then incremented, the spec's own
decision D12 (log 13); the underflow's name is D11 (log 17). -/
def Obligations.PopLoadsAtTheStackPointer : Prop :=
  (∀ (r : Reg) (s : State), r ≠ 7 → s.x[7] ≠ 255 → exec (.pop r.byte) s =
    .next { s with x := (s.x.set r (s.mem.read s.x[7].toNat)).set 7 (s.x[7] + 1), pc := s.pc + 2 }) ∧
  (∀ (r : Reg) (s : State), r ≠ 7 → s.x[7] = 255 → exec (.pop r.byte) s = .next (s.recordFault .stackUnderflow 0)) ∧
  (∀ s : State, s.mem.read s.x[7].toNat ≠ 255 → exec (.pop 7) s =
    .next { s with x := s.x.set 7 (s.mem.read s.x[7].toNat + 1), pc := s.pc + 2 }) ∧
  (∀ s : State, s.mem.read s.x[7].toNat = 255 → exec (.pop 7) s = .next (s.recordFault .stackUnderflow 0)) ∧
  (∀ (a : Byte) (s : State), 7 < a.toNat → exec (.pop a) s = .next (s.recordFault .outOfBounds (a.setWidth 9))) ∧
  OperandFetchFaults .pop

/-- CALL (spec/44_call_ret.md). With R7 the target is the decremented SP, the spec's own decision D12 (log 13); a return
address above 255 raises `OutOfBounds`, D13 (log 18), after the check of SP, D9 (log 15). -/
def Obligations.CallPushesTheReturnAddress : Prop :=
  (∀ (r : Reg) (s : State), r ≠ 7 → s.x[7] ≠ 0 → s.pc.toNat + 2 ≤ 255 → exec (.call r.byte) s =
    .next { s with
      x := s.x.set 7 (s.x[7] - 1)
      mem := s.mem.write (s.x[7].toNat - 1) (BitVec.ofNat 8 (s.pc.toNat + 2))
      pc := s.x[r].setWidth 9 }) ∧
  (∀ s : State, s.x[7] ≠ 0 → s.pc.toNat + 2 ≤ 255 → exec (.call 7) s =
    .next { s with
      x := s.x.set 7 (s.x[7] - 1)
      mem := s.mem.write (s.x[7].toNat - 1) (BitVec.ofNat 8 (s.pc.toNat + 2))
      pc := (s.x[7] - 1).setWidth 9 }) ∧
  (∀ (r : Reg) (s : State), s.x[7] = 0 → exec (.call r.byte) s = .next (s.recordFault .stackOverflow 0)) ∧
  (∀ (r : Reg) (s : State), s.x[7] ≠ 0 → 255 < s.pc.toNat + 2 →
    exec (.call r.byte) s = .next (s.recordFault .outOfBounds (s.pc + 2))) ∧
  (∀ (a : Byte) (s : State), 7 < a.toNat → exec (.call a) s = .next (s.recordFault .outOfBounds (a.setWidth 9))) ∧
  OperandFetchFaults .call

/-- R161, RET: the effect, the underflow, the format. -/
def Obligations.RetPopsThePc : Prop :=
  (∀ s : State, s.x[7] ≠ 255 → exec .ret s =
    .next { s with x := s.x.set 7 (s.x[7] + 1), pc := (s.mem.read s.x[7].toNat).setWidth 9 }) ∧
  (∀ s : State, s.x[7] = 255 → exec .ret s = .next (s.recordFault .stackUnderflow 0)) ∧
  RunsAtEveryAddress .ret ∧ (∀ t : OpcodeBytes, encodeWith t .ret = [t.ret])

/-- R170, NOP. -/
def Obligations.NopOnlyAdvancesThePc : Prop :=
  (∀ s : State, exec .nop s = .next { s with pc := s.pc + 1 }) ∧ RunsAtEveryAddress .nop ∧
  (∀ t : OpcodeBytes, encodeWith t .nop = [t.nop])

/-- HLT (spec/45_nop_hlt.md): RUNNING becomes HALTED and nothing else changes; that the pc stays is the spec's own
decision D14 (log 16). -/
def Obligations.HltOnlyHalts : Prop :=
  (∀ s : State, exec .hlt s = .next { s with runState := .halted }) ∧ RunsAtEveryAddress .hlt

/-- Where the pc goes (spec/40_execution_cycle.md section 2). An instruction that completes and is not CALL, RET or HLT
adds its length, without reduction modulo 256; CALL and RET write a zero-extended byte and add nothing further, CALL the
register's after the stack is updated (for R7 the spec's own decision D12, log 13), RET the cell's at SP; a fault leaves
the pc (D8, log 15), and so does HLT (D14, log 16). -/
def Obligations.PcAdvancesByTheLength : Prop :=
  ∀ (i : Instr) (s t : State), s.pc.toNat ≤ 255 → s.faultCode = .none → exec i s = .next t →
    (t.faultCode ≠ .none → t.pc = s.pc) ∧
    (t.faultCode = .none → i = .hlt → t.pc = s.pc) ∧
    (t.faultCode = .none → ∀ a, i = .call a → ∃ r : Reg, a = r.byte ∧ t.pc = t.x[r].setWidth 9) ∧
    (t.faultCode = .none → i = .ret → t.pc = (s.mem.read s.x[7].toNat).setWidth 9) ∧
    (t.faultCode = .none → i ≠ .hlt → i ≠ .ret → (∀ a, i ≠ .call a) →
      t.pc.toNat = s.pc.toNat + i.opcode.length)

/-! ### Frames -/

/-- R139, the frame of MUL, ADD, SUB, DIV: one register, the first operand's, and the pc; no memory cell, no output, no
status register unless a fault is raised, which writes nothing else. -/
def Obligations.AluWritesOneRegisterAndPc : Prop :=
  ∀ (a b : Byte) (i : Instr) (s t : State), i = .mul a b ∨ i = .add a b ∨ i = .sub a b ∨ i = .div a b →
    exec i s = .next t →
    (∀ r : Reg, r.byte ≠ a → t.x[r] = s.x[r]) ∧ (∀ addr, t.mem.read addr = s.mem.read addr) ∧
    t.out = s.out ∧ t.started = s.started ∧ StatusKeptOrFaultOnly s t

/-- The frame of LDI, PRN and NOP: LDI writes its destination register, PRN the output, NOP neither; memory and the
status registers are kept, unless a fault is raised, which writes nothing else. -/
def Obligations.LoadPrintNopFrame : Prop :=
  (∀ (a imm : Byte) (s t : State), exec (.ldi a imm) s = .next t →
    (∀ r : Reg, r.byte ≠ a → t.x[r] = s.x[r]) ∧ (∀ addr, t.mem.read addr = s.mem.read addr) ∧
    t.out = s.out ∧ t.started = s.started ∧ StatusKeptOrFaultOnly s t) ∧
  (∀ (i : Instr) (s t : State), i = .nop ∨ (∃ a, i = .prn a) → exec i s = .next t →
    t.x = s.x ∧ (∀ addr, t.mem.read addr = s.mem.read addr) ∧
    (i = .nop → t.out = s.out) ∧ t.started = s.started ∧ StatusKeptOrFaultOnly s t)

/-- The frame of POP and RET, which load from the stack and store nothing: POP writes its destination register and SP,
RET writes SP. -/
def Obligations.StackLoadFrame : Prop :=
  ∀ (i : Instr) (s t : State), i = .ret ∨ (∃ a, i = .pop a) → exec i s = .next t →
    (∀ r : Reg, r ≠ 7 → i ≠ .pop r.byte → t.x[r] = s.x[r]) ∧ (∀ addr, t.mem.read addr = s.mem.read addr) ∧
    t.out = s.out ∧ t.started = s.started ∧ StatusKeptOrFaultOnly s t

/-- The frame of PUSH and CALL, which store one byte at the address `s.pushAddress` computes: every cell outside it
reads as before, every cell where there is no such address; of the registers only SP is written. -/
def Obligations.StackStoreFrame : Prop :=
  ∀ (a : Byte) (i : Instr) (s t : State), i = .push a ∨ i = .call a → exec i s = .next t →
    (∀ top, s.pushAddress = some top → ∀ addr, addr ≠ top.toNat → t.mem.read addr = s.mem.read addr) ∧
    (s.pushAddress = none → ∀ addr, t.mem.read addr = s.mem.read addr) ∧
    (∀ r : Reg, r ≠ 7 → t.x[r] = s.x[r]) ∧ t.out = s.out ∧ t.started = s.started ∧ StatusKeptOrFaultOnly s t

/-! ### Rules about the whole machine -/

/-- The invariant of spec/40_execution_cycle.md section 2: the pc stays in 0..258, a RUNNING core has no fault recorded,
the fault detail stays in the range of its cause, and memory keeps its canonical form (the model's). -/
def Obligations.StepKeepsTheInvariant : Prop := ∀ s t : State, s.Inv → step s = .next t → t.Inv

/-- Faults are precise and recorded truly (spec/60_exceptions.md section 2; the spec's own decision D8, log 15): an
invariant of the step says that any state with a recorded fault is one in which, the record taken away, the same step
raises the same fault again. -/
def Obligations.StepKeepsFaultTruthful : Prop :=
  ∀ s t : State, s.Inv → s.FaultTruthful → step s = .next t → t.FaultTruthful

/-- A clean halt is HLT's (spec/60_exceptions.md section 4): in a state that is HALTED without a fault the pc is at an
HLT opcode byte, and every step keeps it so. -/
def Obligations.StepKeepsCleanHaltAtHlt : Prop :=
  ∀ s t : State, s.Inv → s.CleanHaltAtHlt → step s = .next t → t.CleanHaltAtHlt

/-- A step that records a fault has no other effect (spec/60_exceptions.md section 2; the spec's own decision D8,
log 15). -/
def Obligations.FaultingStepWritesOnlyTheStatus : Prop :=
  ∀ s t : State, s.faultCode = .none → step s = .next t → t.faultCode ≠ .none →
    t = s.recordFault t.faultCode t.faultInfo

/-- R31: a RUNNING core becomes HALTED exactly by HLT or a fault; no instruction, no step and no host operation but reset
takes it from HALTED back to RUNNING; reset does. -/
def Obligations.HaltedOnlyByHltOrFault : Prop :=
  (∀ (i : Instr) (s t : State), s.runState = .running → s.faultCode = .none → exec i s = .next t →
    (t.runState = .halted ↔ i = .hlt ∨ t.faultCode ≠ .none)) ∧
  (∀ (i : Instr) (s t : State), s.runState = .halted → exec i s = .next t → t.runState = .halted) ∧
  (∀ s t : State, s.runState = .halted → step s = .next t → t.runState = .halted) ∧
  (∀ (c : HostCall) (s : State), s.runState = .halted → c ≠ .reset → (hostCall c s).2.runState = .halted) ∧
  (∀ s : State, s.runState = .halted → (hostCall .reset s).2.runState = .running)

/-- The only instructions that write memory are PUSH and CALL, one byte each, at the new top of stack
(spec/10_state.md section 3). -/
def Obligations.OnlyPushAndCallWriteMemory : Prop :=
  ∀ (i : Instr) (s t : State), exec i s = .next t → t.mem ≠ s.mem →
    ((∃ a, i = .push a) ∨ (∃ a, i = .call a)) ∧ ∃ v, t.mem = s.mem.write t.x[7].toNat v

/-- The only instructions that read memory as data are POP and RET (spec/10_state.md section 3): of every other, nothing it
does depends on what memory holds. Either it keeps memory, whatever that is, or it stores one byte at the address
`s.pushAddress` computes, the same byte whatever memory is; and all else it leaves is the same. -/
def Obligations.OnlyPopAndRetReadMemoryAsData : Prop :=
  ∀ (i : Instr) (s t : State), i ≠ .ret → (∀ a, i ≠ .pop a) → exec i s = .next t →
    (∀ m : Memory, exec i { s with mem := m } = .next { t with mem := m }) ∨
    ∃ top v, s.pushAddress = some top ∧
      ∀ m : Memory, exec i { s with mem := m } = .next { t with mem := m.write top.toNat v }

/-- The output is appended to only by PRN, one value, and no instruction reads it (spec/10_state.md section 5). That the
output port shows the value between the two states is the model's choice, log 12; that reset leaves the output empty is
the spec's own decision D16, log 19. -/
def Obligations.OutputIsWrittenOnlyByPrn : Prop :=
  (∀ (i : Instr) (s t : State), exec i s = .next t →
    t.out = s.out ∨ ∃ r : Reg, i = .prn r.byte ∧ t.out = s.out ++ [s.x[r]] ∧ outputPort s t = some s.x[r]) ∧
  (∀ (i : Instr) (s t : State) (out : List Byte), exec i s = .next t →
    ∃ u, exec i { s with out := out } = .next u ∧ u = { t with out := u.out }) ∧
  State.reset.out = []

/-- Exactly one of the three outcomes of spec/40_execution_cycle.md section 2 holds of the run from any state. A core that
is RUNNING and not started counts as one that never halts: its steps change nothing (log 1). -/
def Obligations.RunHasExactlyOneOutcome : Prop :=
  ∀ s : State, (HaltsClean s ∨ HaltsWithFault s ∨ NeverHalts s) ∧ ¬ (HaltsClean s ∧ HaltsWithFault s) ∧
    ¬ (HaltsClean s ∧ NeverHalts s) ∧ ¬ (HaltsWithFault s ∧ NeverHalts s)

/-- The bits of the status port (spec/60_exceptions.md section 1, spec/70_reset_and_hazards.md section 4): the numbers
are the spec's own decision D10. -/
def Obligations.StatusPortEncoding : Prop :=
  (∀ s : State, s.statusPort.pc = s.pc ∧ s.statusPort.faultInfo = s.faultInfo ∧
    (s.statusPort.runState = 0 ↔ s.runState = .running) ∧ (s.statusPort.runState = 1 ↔ s.runState = .halted)) ∧
  FaultCode.none.bits = 0 ∧ FaultCode.outOfBounds.bits = 1 ∧ FaultCode.unknownOpcode.bits = 2 ∧
  FaultCode.divisionByZero.bits = 3 ∧ FaultCode.stackOverflow.bits = 4 ∧ FaultCode.stackUnderflow.bits = 5 ∧
  (∀ s : State, s.statusPort.faultCode = s.faultCode.bits) ∧ (∀ c : FaultCode, c.bits.toNat ≤ 5)

/-! ### Laws over several instructions -/

/-- The push-pop law of spec/43_stack.md section 3, which the spec derives: PUSH then POP on the same register, 7
included, restores the register and SP; two pushes and two pops come out last in, first out. -/
def Obligations.PushThenPopIsLastInFirstOut : Prop :=
  (∀ (r : Reg) (s : State), s.mem.wf = true → s.x[7] ≠ 0 →
    ∃ t u, exec (.push r.byte) s = .next t ∧ exec (.pop r.byte) t = .next u ∧
      u = { s with mem := s.mem.write (s.x[7].toNat - 1) t.x[r], pc := s.pc + 4 }) ∧
  (∀ (a b c d : Reg) (s : State), s.mem.wf = true → a ≠ 7 → b ≠ 7 → c ≠ 7 → d ≠ 7 → c ≠ d → 2 ≤ s.x[7].toNat →
    ∃ t u v w, exec (.push a.byte) s = .next t ∧ exec (.push b.byte) t = .next u ∧
      exec (.pop c.byte) u = .next v ∧ exec (.pop d.byte) v = .next w ∧
      w.x[c] = s.x[b] ∧ w.x[d] = s.x[a] ∧ w.x[7] = s.x[7])

/-- R162: after a CALL that completes, a RET executed with SP and the cell of the return address as the CALL left them
resumes at the call's pc + 2 with SP restored; nested, the inner return comes first, then the outer, each level using
one byte of stack. -/
def Obligations.ReturnResumesAfterTheCall : Prop :=
  (∀ (a : Byte) (s t u : State), s.mem.wf = true → s.faultCode = .none → exec (.call a) s = .next t →
    t.faultCode = .none → u.x[7] = t.x[7] → u.mem.read u.x[7].toNat = t.mem.read t.x[7].toNat →
    ∃ v, exec .ret u = .next v ∧ v.pc = s.pc + 2 ∧ v.x[7] = s.x[7] ∧ s.x[7].toNat = t.x[7].toNat + 1) ∧
  (∀ (a b : Byte) (s t u v w : State), s.mem.wf = true → s.faultCode = .none → exec (.call a) s = .next t →
    t.faultCode = .none → u.mem.wf = true → u.faultCode = .none → u.x[7] = t.x[7] →
    u.mem.read u.x[7].toNat = t.mem.read t.x[7].toNat → exec (.call b) u = .next v → v.faultCode = .none →
    w.x[7] = v.x[7] → w.mem.read w.x[7].toNat = v.mem.read v.x[7].toNat →
    w.mem.read t.x[7].toNat = v.mem.read t.x[7].toNat →
    ∃ y z, exec .ret w = .next y ∧ y.pc = u.pc + 2 ∧ exec .ret y = .next z ∧ z.pc = s.pc + 2 ∧ z.x[7] = s.x[7])

/-- The idiom of spec/44_call_ret.md for a jump without a return address: LDI Ra, target; PUSH Ra; RET, for every
register but R7, whose LDI moves the stack. -/
def Obligations.LdiPushRetJumps : Prop :=
  ∀ (r : Reg) (target : Byte) (s : State), s.mem.wf = true → r ≠ 7 → s.x[7] ≠ 0 →
    ∃ t u v, exec (.ldi r.byte target) s = .next t ∧ exec (.push r.byte) t = .next u ∧ exec .ret u = .next v ∧
      v.pc = target.setWidth 9 ∧ v.x = s.x.set r target

/-- LDI followed by PRN on the same register, 7 included, emits the immediate (spec/41_ldi_prn.md). -/
def Obligations.LdiThenPrnEmitsTheImmediate : Prop :=
  ∀ (r : Reg) (imm : Byte) (s : State), ∃ t u, exec (.ldi r.byte imm) s = .next t ∧ exec (.prn r.byte) t = .next u ∧
    u.out = s.out ++ [imm]

/-- The stack's only limits (spec/43_stack.md section 3): from SP = n, exactly n pushes succeed and the next overflows;
exactly 255 - n pops succeed and the next underflows (the faults' names are the spec's own decision D11, log 17). -/
def Obligations.StackLimits : Prop :=
  (∀ (r : Reg) (s : State), r ≠ 7 →
    ∃ t, execTimes (.push r.byte) s.x[7].toNat s = .next t ∧ t.x[7] = 0 ∧ t.faultCode = s.faultCode ∧
      exec (.push r.byte) t = .next (t.recordFault .stackOverflow 0)) ∧
  (∀ (r : Reg) (s : State), r ≠ 7 →
    ∃ t, execTimes (.pop r.byte) (255 - s.x[7].toNat) s = .next t ∧ t.x[7] = 255 ∧ t.faultCode = s.faultCode ∧
      exec (.pop r.byte) t = .next (t.recordFault .stackUnderflow 0))

/-- The numeral of an output value: decimal digits that read back as the value, with no leading zero
(spec/41_ldi_prn.md; the spec's own decision D19, outside the hardware). -/
def Obligations.OutputNumeralIsShortestDecimal : Prop :=
  ∀ v : Byte, (decimal v).foldl (fun n c => 10 * n + (c.toNat - 48)) 0 = v.toNat ∧
    (∀ c ∈ decimal v, 48 ≤ c.toNat ∧ c.toNat ≤ 57) ∧ decimal v ≠ [] ∧
    ((decimal v).head? = some '0' → decimal v = ['0'])

/-- The input reset brings a core that is not stepping, in whatever state, to the state after reset
(spec/70_reset_and_hazards.md sections 1 and 4; that it clears memory and output too is the spec's own decision D16,
log 19). -/
def Obligations.ResetInputResets : Prop :=
  ∀ s : State, ¬ s.Stepping → hostCall .reset s = (.done, State.reset)
end

