-- ==== Sys2Proof/Laws/Decode.lean ====
section
/-!
SUPPORT. The laws of the opcode table.
-/

namespace Sys2Proof

/-- The assignment of this hardware is pairwise distinct (spec/30_encoding.md rule R87). -/
theorem defaultOpcodes_distinct : defaultOpcodes.Distinct := by decide

/-- A row that is found has the byte that was looked up. -/
theorem OpcodeBytes.byte_of_lookup {t : OpcodeBytes} {ir : Byte} {op : Opcode} (h : t.lookup ir = some op) :
    t.byte op = ir := by
  obtain ⟨row, hrow, rfl⟩ := Option.map_eq_some_iff.mp h
  have hmem := List.mem_of_find?_eq_some hrow
  have hbyte : row.1 = ir := by simpa using List.find?_some hrow
  simp only [OpcodeBytes.rows, List.mem_cons, List.not_mem_nil, or_false] at hmem
  rcases hmem with rfl | rfl | rfl | rfl | rfl | rfl | rfl | rfl | rfl | rfl | rfl | rfl <;> exact hbyte

/-- Under a distinct assignment the byte of an opcode selects its row. -/
theorem OpcodeBytes.lookup_byte {t : OpcodeBytes} (ht : t.Distinct) (op : Opcode) : t.lookup (t.byte op) = some op := by
  simp only [OpcodeBytes.Distinct, OpcodeBytes.bytes, List.nodup_cons, List.mem_cons, List.not_mem_nil, or_false,
    not_or] at ht
  cases op <;> simp [OpcodeBytes.lookup, OpcodeBytes.rows, OpcodeBytes.byte, ht]

/-- No row is found exactly when the byte is none of the twelve. -/
theorem OpcodeBytes.lookup_eq_none {t : OpcodeBytes} {ir : Byte} : t.lookup ir = none ↔ ir ∉ t.bytes := by
  simp only [OpcodeBytes.lookup, OpcodeBytes.rows, OpcodeBytes.bytes, Option.map_eq_none_iff, List.find?_eq_none,
    List.mem_cons, List.not_mem_nil, or_false, forall_eq_or_imp, forall_eq, beq_iff_eq, not_or, eq_comm (a := ir)]

/-- With enough bytes the operands are taken, exactly as many as the row has. -/
theorem Opcode.takeOperands_ok {op : Opcode} {bytes : List Byte} (h : op.format.operandCount ≤ bytes.length) :
    ∃ i, op.takeOperands bytes = .ok (i, bytes.drop op.format.operandCount) ∧ i.opcode = op ∧
      i.operands = bytes.take op.format.operandCount := by
  match bytes with
  | [] => cases op <;> simp [Opcode.format, Format.operandCount] at h <;> exact ⟨_, rfl, rfl, rfl⟩
  | [a] => cases op <;> simp [Opcode.format, Format.operandCount] at h <;> exact ⟨_, rfl, rfl, rfl⟩
  | a :: b :: rest => cases op <;> exact ⟨_, rfl, rfl, rfl⟩

/-- With too few, the first operand byte that is not there is named. -/
theorem Opcode.takeOperands_error {op : Opcode} {bytes : List Byte} (h : bytes.length < op.format.operandCount) :
    op.takeOperands bytes = .error (.missingOperand (bytes.length + 1)) := by
  match bytes with
  | [] => cases op <;> simp [Opcode.format, Format.operandCount] at h <;> rfl
  | [a] => cases op <;> simp [Opcode.format, Format.operandCount] at h <;> rfl
  | a :: b :: rest =>
    exfalso
    cases op <;> simp [Opcode.format, Format.operandCount] at h

end Sys2Proof
end

