-- ==== Sys2Proof/Laws/Memory.lean ====
section
/-!
SUPPORT. The laws of memory: read after write, and that every operation keeps the canonical form.
-/

namespace Sys2Proof.Machine

@[simp] theorem Memory.read_nil (a : Nat) : Memory.read [] a = Memory.unlisted := rfl

@[simp] theorem Memory.read_cons (b a : Nat) (w : Byte) (rest : Memory) :
    Memory.read ((b, w) :: rest) a = if b = a then w else Memory.read rest a := rfl

theorem Memory.wfFrom_cons {low a : Nat} {v : Byte} {rest : Memory} :
    Memory.wfFrom low ((a, v) :: rest) = true ↔
      low ≤ a ∧ a < Config.memSize ∧ v ≠ Memory.unlisted ∧ Memory.wfFrom (a + 1) rest = true := by
  simp [Memory.wfFrom, and_assoc]

theorem Memory.wfFrom_mono {low high : Nat} (h : low ≤ high) {m : Memory} (hm : Memory.wfFrom high m = true) :
    Memory.wfFrom low m = true := by
  cases m with
  | nil => rfl
  | cons c rest =>
    obtain ⟨a, v⟩ := c
    rw [Memory.wfFrom_cons] at hm ⊢
    exact ⟨h.trans hm.1, hm.2⟩

/-- Nothing is listed below the bound. -/
theorem Memory.read_below {low : Nat} {m : Memory} (hm : Memory.wfFrom low m = true) {a : Nat} (h : a < low) :
    m.read a = Memory.unlisted := by
  induction m generalizing low with
  | nil => rfl
  | cons c rest ih =>
    obtain ⟨b, w⟩ := c
    obtain ⟨hb, _, _, hr⟩ := Memory.wfFrom_cons.mp hm
    rw [Memory.read_cons, if_neg (by omega)]
    exact ih hr (by omega)

/-- Nothing is listed above the end of memory. -/
theorem Memory.read_outside {low : Nat} {m : Memory} (hm : Memory.wfFrom low m = true) {a : Nat}
    (h : Config.memSize ≤ a) : m.read a = Memory.unlisted := by
  induction m generalizing low with
  | nil => rfl
  | cons c rest ih =>
    obtain ⟨b, w⟩ := c
    obtain ⟨_, hb, _, hr⟩ := Memory.wfFrom_cons.mp hm
    rw [Memory.read_cons, if_neg (by omega)]
    exact ih hr

theorem Memory.read_listCell (a b : Nat) (v : Byte) (rest : Memory) (h : rest.read a = Memory.unlisted) :
    (Memory.listCell a v rest).read b = if a = b then v else rest.read b := by
  unfold Memory.listCell
  split
  · rename_i hv
    split
    · rename_i hab; rw [← hab, h, hv]
    · rfl
  · rfl

theorem Memory.read_listCell_other (a b : Nat) (v : Byte) (rest : Memory) (h : a ≠ b) :
    (Memory.listCell a v rest).read b = rest.read b := by
  unfold Memory.listCell
  split
  · rfl
  · rw [Memory.read_cons, if_neg h]

/-- A write changes no other cell. -/
theorem Memory.read_write_other (m : Memory) {a b : Nat} (v : Byte) (h : a ≠ b) :
    (m.write a v).read b = m.read b := by
  induction m with
  | nil => exact Memory.read_listCell_other a b v [] h
  | cons c rest ih =>
    obtain ⟨k, w⟩ := c
    unfold Memory.write
    split
    · exact Memory.read_listCell_other a b v _ h
    · split
      · rename_i hak
        rw [Memory.read_listCell_other a b v rest h, Memory.read_cons, if_neg (by omega)]
      · rw [Memory.read_cons, Memory.read_cons, ih]

/-- A read after a write to the same cell gives the byte written. -/
theorem Memory.read_write_same {low : Nat} {m : Memory} (hm : Memory.wfFrom low m = true) (a : Nat) (v : Byte) :
    (m.write a v).read a = v := by
  induction m generalizing low with
  | nil => rw [Memory.write, Memory.read_listCell _ _ _ _ rfl, if_pos rfl]
  | cons c rest ih =>
    obtain ⟨k, w⟩ := c
    obtain ⟨_, _, _, hr⟩ := Memory.wfFrom_cons.mp hm
    unfold Memory.write
    split
    · rename_i hak
      rw [Memory.read_listCell _ _ _ _ _, if_pos rfl]
      rw [Memory.read_cons, if_neg (by omega)]
      exact Memory.read_below hr (by omega)
    · split
      · rename_i hak
        rw [Memory.read_listCell _ _ _ _ (Memory.read_below hr (by omega)), if_pos rfl]
      · rw [Memory.read_cons, if_neg (by omega)]
        exact ih hr

theorem Memory.read_write {m : Memory} (hm : m.wf = true) (a b : Nat) (v : Byte) :
    (m.write a v).read b = if a = b then v else m.read b := by
  split
  · rename_i h; rw [← h]; exact Memory.read_write_same hm a v
  · rename_i h; exact Memory.read_write_other m v h

theorem Memory.wfFrom_listCell {low a : Nat} {v : Byte} {rest : Memory} (h : low ≤ a) (ha : a < Config.memSize)
    (hr : Memory.wfFrom (a + 1) rest = true) : Memory.wfFrom low (Memory.listCell a v rest) = true := by
  unfold Memory.listCell
  split
  · exact Memory.wfFrom_mono (by omega) hr
  · rename_i hv
    exact Memory.wfFrom_cons.mpr ⟨h, ha, hv, hr⟩

theorem Memory.wfFrom_write {low a : Nat} {m : Memory} (hm : Memory.wfFrom low m = true) (h : low ≤ a)
    (ha : a < Config.memSize) (v : Byte) : Memory.wfFrom low (m.write a v) = true := by
  induction m generalizing low with
  | nil => exact Memory.wfFrom_listCell h ha rfl
  | cons c rest ih =>
    obtain ⟨k, w⟩ := c
    obtain ⟨hk, hks, hw, hr⟩ := Memory.wfFrom_cons.mp hm
    unfold Memory.write
    split
    · rename_i hak
      exact Memory.wfFrom_listCell h ha (Memory.wfFrom_cons.mpr ⟨hak, hks, hw, hr⟩)
    · split
      · rename_i hak
        exact Memory.wfFrom_listCell h ha (hak ▸ hr)
      · exact Memory.wfFrom_cons.mpr ⟨hk, hks, hw, ih hr (by omega)⟩

/-- A write inside memory keeps the canonical form. -/
theorem Memory.write_wf {m : Memory} (hm : m.wf = true) {a : Nat} (ha : a < Config.memSize) (v : Byte) :
    (m.write a v).wf = true := Memory.wfFrom_write hm (Nat.zero_le a) ha v

/-- Storing a sequence inside memory keeps the canonical form. -/
theorem Memory.writeBytes_wf {m : Memory} (hm : m.wf = true) {a : Nat} (vs : List Byte)
    (ha : a + vs.length ≤ Config.memSize) : (m.writeBytes a vs).wf = true := by
  induction vs generalizing m a with
  | nil => exact hm
  | cons v vs ih =>
    rw [List.length_cons] at ha
    exact ih (Memory.write_wf hm (by omega) v) (by omega)

/-- What a cell holds after a sequence has been stored. -/
theorem Memory.read_writeBytes {m : Memory} (hm : m.wf = true) (a : Nat) (vs : List Byte)
    (ha : a + vs.length ≤ Config.memSize) (b : Nat) :
    (m.writeBytes a vs).read b = if a ≤ b then vs.getD (b - a) (m.read b) else m.read b := by
  induction vs generalizing m a with
  | nil => simp [Memory.writeBytes]
  | cons v vs ih =>
    rw [List.length_cons] at ha
    rw [Memory.writeBytes, ih (Memory.write_wf hm (by omega) v) (a + 1) (by omega),
      Memory.read_write hm]
    by_cases hab : a = b
    · subst hab; simp
    · by_cases hle : a ≤ b
      · have h1 : b - a = (b - (a + 1)) + 1 := by omega
        rw [if_pos (by omega), if_pos hle, if_neg hab, h1, List.getD_cons_succ]
      · rw [if_neg (by omega), if_neg hle, if_neg hab]

theorem Memory.wfFrom_ext {low : Nat} {m n : Memory} (hm : Memory.wfFrom low m = true)
    (hn : Memory.wfFrom low n = true) (h : ∀ a, m.read a = n.read a) : m = n := by
  induction m generalizing low n with
  | nil =>
    cases n with
    | nil => rfl
    | cons c rest =>
      obtain ⟨b, w⟩ := c
      have hb := h b
      rw [Memory.read_cons, if_pos rfl] at hb
      exact absurd hb.symm (Memory.wfFrom_cons.mp hn).2.2.1
  | cons c rest ih =>
    obtain ⟨a, v⟩ := c
    obtain ⟨_, _, hv, hr⟩ := Memory.wfFrom_cons.mp hm
    cases n with
    | nil =>
      have ha := h a
      rw [Memory.read_cons, if_pos rfl] at ha
      exact absurd ha hv
    | cons d rest' =>
      obtain ⟨b, w⟩ := d
      obtain ⟨_, _, hw, hr'⟩ := Memory.wfFrom_cons.mp hn
      have ha := h a
      have hb := h b
      simp only [Memory.read_cons, if_true] at ha hb
      have hab : a = b := by
        rcases Nat.lt_trichotomy a b with hlt | heq | hgt
        · rw [if_neg (by omega), Memory.read_below hr' (by omega)] at ha
          exact absurd ha hv
        · exact heq
        · rw [if_neg (by omega), Memory.read_below hr (by omega)] at hb
          exact absurd hb.symm hw
      subst hab
      rw [if_pos rfl] at ha
      have hrest : rest = rest' := by
        refine ih hr hr' fun k => ?_
        by_cases hk : a = k
        · rw [← hk, Memory.read_below hr (by omega), Memory.read_below hr' (by omega)]
        · have := h k
          rwa [Memory.read_cons, Memory.read_cons, if_neg hk, if_neg hk] at this
      rw [ha, hrest]

/-- The bytes from an address up are the cells there, as long as they lie inside memory. -/
theorem Memory.bytesFrom_eq (m : Memory) (a n k : Nat) (h : k < n) (hk : a + k < Config.memSize) :
    (m.bytesFrom a n)[k]? = some (m.read (a + k)) := by
  induction n generalizing a k with
  | zero => omega
  | succ n ih =>
    rw [Memory.bytesFrom, if_pos (by omega)]
    cases k with
    | zero => rfl
    | succ k =>
      rw [List.getElem?_cons_succ, ih (a + 1) k (by omega) (by omega)]
      congr 2
      omega

/-- How many bytes there are up to the end of memory. -/
theorem Memory.length_bytesFrom (m : Memory) (a n : Nat) :
    (m.bytesFrom a n).length = min n (Config.memSize - a) := by
  induction n generalizing a with
  | zero => simp [Memory.bytesFrom]
  | succ n ih =>
    rw [Memory.bytesFrom]
    split
    · rw [List.length_cons, ih]; omega
    · simp only [List.length_nil]; omega

end Sys2Proof.Machine
end

