-- ==== Sys2Proof/Laws/State.lean ====
section
/-!
SUPPORT. One lemma per field of State for each of its updates, all true by rfl.
-/

namespace Sys2Proof.Machine

@[simp] theorem State.writeReg_x (s : State) (r : Reg) (v : Byte) : (s.writeReg r v).x = s.x.set r v := rfl
@[simp] theorem State.writeReg_pc (s : State) (r : Reg) (v : Byte) : (s.writeReg r v).pc = s.pc := rfl
@[simp] theorem State.writeReg_mem (s : State) (r : Reg) (v : Byte) : (s.writeReg r v).mem = s.mem := rfl
@[simp] theorem State.writeReg_runState (s : State) (r : Reg) (v : Byte) : (s.writeReg r v).runState = s.runState := rfl
@[simp] theorem State.writeReg_faultCode (s : State) (r : Reg) (v : Byte) : (s.writeReg r v).faultCode = s.faultCode := rfl
@[simp] theorem State.writeReg_faultInfo (s : State) (r : Reg) (v : Byte) : (s.writeReg r v).faultInfo = s.faultInfo := rfl
@[simp] theorem State.writeReg_out (s : State) (r : Reg) (v : Byte) : (s.writeReg r v).out = s.out := rfl
@[simp] theorem State.writeReg_started (s : State) (r : Reg) (v : Byte) : (s.writeReg r v).started = s.started := rfl

@[simp] theorem State.setSp_x (s : State) (v : Byte) : (s.setSp v).x = s.x.set Config.spReg v := rfl
@[simp] theorem State.setSp_pc (s : State) (v : Byte) : (s.setSp v).pc = s.pc := rfl
@[simp] theorem State.setSp_mem (s : State) (v : Byte) : (s.setSp v).mem = s.mem := rfl
@[simp] theorem State.setSp_runState (s : State) (v : Byte) : (s.setSp v).runState = s.runState := rfl
@[simp] theorem State.setSp_faultCode (s : State) (v : Byte) : (s.setSp v).faultCode = s.faultCode := rfl
@[simp] theorem State.setSp_faultInfo (s : State) (v : Byte) : (s.setSp v).faultInfo = s.faultInfo := rfl
@[simp] theorem State.setSp_out (s : State) (v : Byte) : (s.setSp v).out = s.out := rfl
@[simp] theorem State.setSp_started (s : State) (v : Byte) : (s.setSp v).started = s.started := rfl

@[simp] theorem State.writeMem_x (s : State) (a v : Byte) : (s.writeMem a v).x = s.x := rfl
@[simp] theorem State.writeMem_pc (s : State) (a v : Byte) : (s.writeMem a v).pc = s.pc := rfl
@[simp] theorem State.writeMem_mem (s : State) (a v : Byte) : (s.writeMem a v).mem = s.mem.write a.toNat v := rfl
@[simp] theorem State.writeMem_runState (s : State) (a v : Byte) : (s.writeMem a v).runState = s.runState := rfl
@[simp] theorem State.writeMem_faultCode (s : State) (a v : Byte) : (s.writeMem a v).faultCode = s.faultCode := rfl
@[simp] theorem State.writeMem_faultInfo (s : State) (a v : Byte) : (s.writeMem a v).faultInfo = s.faultInfo := rfl
@[simp] theorem State.writeMem_out (s : State) (a v : Byte) : (s.writeMem a v).out = s.out := rfl
@[simp] theorem State.writeMem_started (s : State) (a v : Byte) : (s.writeMem a v).started = s.started := rfl

@[simp] theorem State.emit_x (s : State) (v : Byte) : (s.emit v).x = s.x := rfl
@[simp] theorem State.emit_pc (s : State) (v : Byte) : (s.emit v).pc = s.pc := rfl
@[simp] theorem State.emit_mem (s : State) (v : Byte) : (s.emit v).mem = s.mem := rfl
@[simp] theorem State.emit_runState (s : State) (v : Byte) : (s.emit v).runState = s.runState := rfl
@[simp] theorem State.emit_faultCode (s : State) (v : Byte) : (s.emit v).faultCode = s.faultCode := rfl
@[simp] theorem State.emit_faultInfo (s : State) (v : Byte) : (s.emit v).faultInfo = s.faultInfo := rfl
@[simp] theorem State.emit_out (s : State) (v : Byte) : (s.emit v).out = s.out ++ [v] := rfl
@[simp] theorem State.emit_started (s : State) (v : Byte) : (s.emit v).started = s.started := rfl

@[simp] theorem State.setPc_x (s : State) (t : PcWord) : (s.setPc t).x = s.x := rfl
@[simp] theorem State.setPc_pc (s : State) (t : PcWord) : (s.setPc t).pc = t := rfl
@[simp] theorem State.setPc_mem (s : State) (t : PcWord) : (s.setPc t).mem = s.mem := rfl
@[simp] theorem State.setPc_runState (s : State) (t : PcWord) : (s.setPc t).runState = s.runState := rfl
@[simp] theorem State.setPc_faultCode (s : State) (t : PcWord) : (s.setPc t).faultCode = s.faultCode := rfl
@[simp] theorem State.setPc_faultInfo (s : State) (t : PcWord) : (s.setPc t).faultInfo = s.faultInfo := rfl
@[simp] theorem State.setPc_out (s : State) (t : PcWord) : (s.setPc t).out = s.out := rfl
@[simp] theorem State.setPc_started (s : State) (t : PcWord) : (s.setPc t).started = s.started := rfl

@[simp] theorem State.advance_x (s : State) (n : PcWord) : (s.advance n).x = s.x := rfl
@[simp] theorem State.advance_pc (s : State) (n : PcWord) : (s.advance n).pc = s.pc + n := rfl
@[simp] theorem State.advance_mem (s : State) (n : PcWord) : (s.advance n).mem = s.mem := rfl
@[simp] theorem State.advance_runState (s : State) (n : PcWord) : (s.advance n).runState = s.runState := rfl
@[simp] theorem State.advance_faultCode (s : State) (n : PcWord) : (s.advance n).faultCode = s.faultCode := rfl
@[simp] theorem State.advance_faultInfo (s : State) (n : PcWord) : (s.advance n).faultInfo = s.faultInfo := rfl
@[simp] theorem State.advance_out (s : State) (n : PcWord) : (s.advance n).out = s.out := rfl
@[simp] theorem State.advance_started (s : State) (n : PcWord) : (s.advance n).started = s.started := rfl

@[simp] theorem State.halt_x (s : State) : (s.halt).x = s.x := rfl
@[simp] theorem State.halt_pc (s : State) : (s.halt).pc = s.pc := rfl
@[simp] theorem State.halt_mem (s : State) : (s.halt).mem = s.mem := rfl
@[simp] theorem State.halt_runState (s : State) : (s.halt).runState = .halted := rfl
@[simp] theorem State.halt_faultCode (s : State) : (s.halt).faultCode = s.faultCode := rfl
@[simp] theorem State.halt_faultInfo (s : State) : (s.halt).faultInfo = s.faultInfo := rfl
@[simp] theorem State.halt_out (s : State) : (s.halt).out = s.out := rfl
@[simp] theorem State.halt_started (s : State) : (s.halt).started = s.started := rfl

@[simp] theorem State.recordFault_x (s : State) (c : FaultCode) (i : PcWord) : (s.recordFault c i).x = s.x := rfl
@[simp] theorem State.recordFault_pc (s : State) (c : FaultCode) (i : PcWord) : (s.recordFault c i).pc = s.pc := rfl
@[simp] theorem State.recordFault_mem (s : State) (c : FaultCode) (i : PcWord) : (s.recordFault c i).mem = s.mem := rfl
@[simp] theorem State.recordFault_runState (s : State) (c : FaultCode) (i : PcWord) : (s.recordFault c i).runState = .halted := rfl
@[simp] theorem State.recordFault_faultCode (s : State) (c : FaultCode) (i : PcWord) : (s.recordFault c i).faultCode = c := rfl
@[simp] theorem State.recordFault_faultInfo (s : State) (c : FaultCode) (i : PcWord) : (s.recordFault c i).faultInfo = i := rfl
@[simp] theorem State.recordFault_out (s : State) (c : FaultCode) (i : PcWord) : (s.recordFault c i).out = s.out := rfl
@[simp] theorem State.recordFault_started (s : State) (c : FaultCode) (i : PcWord) : (s.recordFault c i).started = s.started := rfl

end Sys2Proof.Machine
end

