-- ==== Sys2Proof/Laws/Ops.lean ====
section
/-!
SUPPORT. What the register and operand operations can do, said once.
-/

namespace Sys2Proof.Machine

theorem State.readReg_writeReg_same (s : State) (r : Reg) (v : Byte) : (s.writeReg r v).readReg r = v := by
  simp [State.readReg, State.writeReg]

theorem State.readReg_writeReg_other (s : State) {r q : Reg} (v : Byte) (h : q ≠ r) :
    (s.writeReg r v).readReg q = s.readReg q := by
  have : (r : Nat) ≠ q := fun e => h (Fin.ext e.symm)
  simp [State.readReg, State.writeReg, this]

@[simp] theorem regIndex_byte (r : Reg) : regIndex r.byte = some r := by
  fin_cases r <;> rfl

theorem regIndex_eq_some {n : Byte} {r : Reg} (h : regIndex n = some r) : n = r.byte := by
  unfold regIndex at h
  split at h
  · obtain rfl := Option.some.inj h
    simp [Reg.byte]
  · cases h

theorem regIndex_eq_none {n : Byte} : regIndex n = none ↔ 7 < n.toNat := by
  unfold regIndex
  split <;> simp <;> omega

/-- A register operand that names a register goes on with it. -/
@[simp] theorem withReg_byte (r : Reg) (s : State) (k : Reg → Result) : withReg r.byte s k = k r := by
  simp [withReg]

@[simp] theorem withRegs_byte (ra rb : Reg) (s : State) (k : Reg → Reg → Result) :
    withRegs ra.byte rb.byte s k = k ra rb := by
  simp [withRegs]

/-- A register operand above 7 raises `OutOfBounds` with that byte. -/
theorem withReg_invalid {a : Byte} (h : 7 < a.toNat) (s : State) (k : Reg → Result) :
    withReg a s k = raise .outOfBounds (zext9 a) s := by
  simp [withReg, regIndex_eq_none.mpr h]

/-- Everything an instruction with one register operand can do. -/
theorem withReg_cases (a : Byte) (s : State) (k : Reg → Result) :
    (∃ r : Reg, a = r.byte ∧ withReg a s k = k r) ∨
    (7 < a.toNat ∧ withReg a s k = raise .outOfBounds (zext9 a) s) := by
  cases h : regIndex a with
  | none => exact .inr ⟨regIndex_eq_none.mp h, by simp [withReg, h]⟩
  | some r => exact .inl ⟨r, regIndex_eq_some h, by simp [withReg, h]⟩

@[simp] theorem raise_eq (c : FaultCode) (i : PcWord) (s : State) : raise c i s = .next (s.recordFault c i) := rfl

theorem State.pushAddress_none {s : State} : s.pushAddress = none ↔ s.sp = 0 := by
  unfold State.pushAddress; split <;> simp_all

theorem State.pushAddress_some {s : State} {top : Byte} : s.pushAddress = some top ↔ s.sp ≠ 0 ∧ top = s.sp - 1 := by
  unfold State.pushAddress; split <;> simp_all [eq_comm]

end Sys2Proof.Machine
end

