-- ==== Sys2Proof/Laws/Exec.lean ====
section
/-!
SUPPORT. Everything an instruction can do, said once: it completes with the effect of its own rule, or it raises one
fault and does nothing else. And everything a step can do.
-/

namespace Sys2Proof.Machine

/-- The ways an instruction completes, one per form. -/
inductive Completes : Instr → State → State → Prop
  | ldi (r : Reg) (imm : Byte) (s : State) : Completes (.ldi r.byte imm) s ((s.writeReg r imm).advance 3)
  | prn (r : Reg) (s : State) : Completes (.prn r.byte) s ((s.emit (s.readReg r)).advance 2)
  | mul (a b : Reg) (s : State) :
      Completes (.mul a.byte b.byte) s ((s.writeReg a (s.readReg a * s.readReg b)).advance 3)
  | add (a b : Reg) (s : State) :
      Completes (.add a.byte b.byte) s ((s.writeReg a (s.readReg a + s.readReg b)).advance 3)
  | sub (a b : Reg) (s : State) :
      Completes (.sub a.byte b.byte) s ((s.writeReg a (s.readReg a - s.readReg b)).advance 3)
  | div (a b : Reg) (s : State) (h : s.readReg b ≠ 0) :
      Completes (.div a.byte b.byte) s ((s.writeReg a (s.readReg a / s.readReg b)).advance 3)
  | push (r : Reg) (s : State) (h : s.sp ≠ 0) :
      Completes (.push r.byte) s
        (((s.setSp (s.sp - 1)).writeMem (s.sp - 1) ((s.setSp (s.sp - 1)).readReg r)).advance 2)
  | pop (r : Reg) (s : State) (h : (s.writeReg r (s.readMem s.sp)).sp ≠ 255) :
      Completes (.pop r.byte) s
        (((s.writeReg r (s.readMem s.sp)).setSp ((s.writeReg r (s.readMem s.sp)).sp + 1)).advance 2)
  | call (r : Reg) (s : State) (h : s.sp ≠ 0) (hp : s.pc.toNat + 2 ≤ 255) :
      Completes (.call r.byte) s
        (((s.writeMem (s.sp - 1) (BitVec.ofNat 8 (s.pc.toNat + 2))).setSp (s.sp - 1)).setPc
          (zext9 (((s.writeMem (s.sp - 1) (BitVec.ofNat 8 (s.pc.toNat + 2))).setSp (s.sp - 1)).readReg r)))
  | ret (s : State) (h : s.sp ≠ 255) : Completes .ret s ((s.setPc (zext9 (s.readMem s.sp))).setSp (s.sp + 1))
  | nop (s : State) : Completes .nop s (s.advance 1)
  | hlt (s : State) : Completes .hlt s s.halt

/-- Completing with the effect, or raising one fault. -/
def CompletesOrFaults (i : Instr) (s : State) (o : Result) : Prop :=
  (∃ t, o = .next t ∧ Completes i s t) ∨
  (∃ code info, o = .next (s.recordFault code info) ∧ code ≠ .none ∧ i ≠ .hlt ∧
    (s.pc.toNat ≤ 255 → code.infoInRange info))

theorem zext9_toNat (v : Byte) : (zext9 v).toNat = v.toNat := by
  have := v.isLt
  simp only [zext9, BitVec.toNat_setWidth]
  omega

/-- An instruction whose register operand is above 7 faults. -/
theorem CompletesOrFaults.ofInvalid {i : Instr} {s : State} {a : Byte} (h : 7 < a.toNat) (hi : i ≠ .hlt) :
    CompletesOrFaults i s (raise .outOfBounds (zext9 a) s) := by
  have := a.isLt
  refine .inr ⟨_, _, rfl, by decide, hi, fun _ => ?_⟩
  simp only [FaultCode.infoInRange, zext9_toNat]
  omega

/-- An instruction with one register operand. -/
theorem CompletesOrFaults.ofReg {mk : Byte → Instr} {s : State} {k : Reg → Result} (a : Byte) (hi : mk a ≠ .hlt)
    (h : ∀ r : Reg, CompletesOrFaults (mk r.byte) s (k r)) : CompletesOrFaults (mk a) s (withReg a s k) := by
  obtain ⟨r, rfl, e⟩ | ⟨ha, e⟩ := withReg_cases a s k
  · exact e ▸ h r
  · exact e ▸ .ofInvalid ha hi

/-- An instruction with two register operands. -/
theorem CompletesOrFaults.ofRegs {mk : Byte → Byte → Instr} {s : State} {k : Reg → Reg → Result} (a b : Byte)
    (hi : ∀ a b, mk a b ≠ .hlt) (h : ∀ ra rb : Reg, CompletesOrFaults (mk ra.byte rb.byte) s (k ra rb)) :
    CompletesOrFaults (mk a b) s (withRegs a b s k) :=
  .ofReg (mk := fun a => mk a b) a (hi a b) fun ra => .ofReg (mk := mk ra.byte) b (hi _ b) fun rb => h ra rb

theorem execLdi_spec (a imm : Byte) (s : State) : CompletesOrFaults (.ldi a imm) s (execLdi a imm s) :=
  .ofReg (mk := fun a => .ldi a imm) a (by simp) fun r => .inl ⟨_, rfl, .ldi r imm s⟩

theorem execPrn_spec (a : Byte) (s : State) : CompletesOrFaults (.prn a) s (execPrn a s) :=
  .ofReg (mk := .prn) a (by simp) fun r => .inl ⟨_, rfl, .prn r s⟩

theorem execMul_spec (a b : Byte) (s : State) : CompletesOrFaults (.mul a b) s (execMul a b s) :=
  .ofRegs (mk := .mul) a b (by simp) fun ra rb => .inl ⟨_, rfl, .mul ra rb s⟩

theorem execAdd_spec (a b : Byte) (s : State) : CompletesOrFaults (.add a b) s (execAdd a b s) :=
  .ofRegs (mk := .add) a b (by simp) fun ra rb => .inl ⟨_, rfl, .add ra rb s⟩

theorem execSub_spec (a b : Byte) (s : State) : CompletesOrFaults (.sub a b) s (execSub a b s) :=
  .ofRegs (mk := .sub) a b (by simp) fun ra rb => .inl ⟨_, rfl, .sub ra rb s⟩

theorem execDiv_spec (a b : Byte) (s : State) : CompletesOrFaults (.div a b) s (execDiv a b s) := by
  refine .ofRegs (mk := .div) a b (by simp) fun ra rb => ?_
  by_cases h : s.readReg rb = 0
  · exact .inr ⟨.divisionByZero, 0, by rw [alu, if_pos h]; rfl, by decide, by simp, fun _ => rfl⟩
  · exact .inl ⟨_, by rw [alu, if_neg h], .div ra rb s h⟩

theorem execPush_spec (a : Byte) (s : State) : CompletesOrFaults (.push a) s (execPush a s) := by
  refine .ofReg (mk := .push) a (by simp) fun r => ?_
  by_cases h : s.sp = 0
  · exact .inr ⟨.stackOverflow, 0, by rw [State.pushAddress_none.mpr h]; rfl, by decide, by simp, fun _ => rfl⟩
  · exact .inl ⟨_, by rw [State.pushAddress_some.mpr ⟨h, rfl⟩], .push r s h⟩

theorem execPop_spec (a : Byte) (s : State) : CompletesOrFaults (.pop a) s (execPop a s) := by
  refine .ofReg (mk := .pop) a (by simp) fun r => ?_
  by_cases h : (s.writeReg r (s.readMem s.sp)).sp = 255
  · exact .inr ⟨.stackUnderflow, 0, if_pos h, by decide, by simp, fun _ => rfl⟩
  · exact .inl ⟨_, if_neg h, .pop r s h⟩

theorem execCall_spec (a : Byte) (s : State) : CompletesOrFaults (.call a) s (execCall a s) := by
  refine .ofReg (mk := .call) a (by simp) fun r => ?_
  by_cases h : s.sp = 0
  · exact .inr ⟨.stackOverflow, 0, by rw [State.pushAddress_none.mpr h]; rfl, by decide, by simp, fun _ => rfl⟩
  · by_cases hp : s.pc.toNat + 2 > 255
    · refine .inr ⟨.outOfBounds, s.pc + 2, by rw [State.pushAddress_some.mpr ⟨h, rfl⟩, State.returnAddress, if_pos hp]; rfl,
        by decide, by simp, fun hpc => ?_⟩
      have : (s.pc + 2).toNat = s.pc.toNat + 2 := by
        rw [BitVec.toNat_add]; exact Nat.mod_eq_of_lt (by simp; omega)
      simp only [FaultCode.infoInRange, this]
      omega
    · exact .inl ⟨_, by rw [State.pushAddress_some.mpr ⟨h, rfl⟩, State.returnAddress, if_neg hp],
        .call r s h (by omega)⟩

theorem execRet_spec (s : State) : CompletesOrFaults .ret s (execRet s) := by
  by_cases h : s.sp = 255
  · exact .inr ⟨.stackUnderflow, 0, if_pos h, by decide, by simp, fun _ => rfl⟩
  · exact .inl ⟨_, if_neg h, .ret s h⟩

/-- Everything an instruction can do. -/
theorem exec_spec (i : Instr) (s : State) : CompletesOrFaults i s (exec i s) := by
  cases i with
  | ldi a imm => exact execLdi_spec a imm s
  | prn a => exact execPrn_spec a s
  | mul a b => exact execMul_spec a b s
  | add a b => exact execAdd_spec a b s
  | sub a b => exact execSub_spec a b s
  | div a b => exact execDiv_spec a b s
  | push a => exact execPush_spec a s
  | pop a => exact execPop_spec a s
  | call a => exact execCall_spec a s
  | ret => exact execRet_spec s
  | nop => exact .inl ⟨_, rfl, .nop s⟩
  | hlt => exact .inl ⟨_, rfl, .hlt s⟩

/-- The same, for an instruction that is known to answer `t`. -/
theorem exec_cases {i : Instr} {s t : State} (h : exec i s = .next t) :
    Completes i s t ∨
    (∃ code info, t = s.recordFault code info ∧ code ≠ .none ∧ i ≠ .hlt ∧
      (s.pc.toNat ≤ 255 → code.infoInRange info)) := by
  obtain ⟨u, e, hu⟩ | ⟨code, info, e, hc⟩ := exec_spec i s
  · rw [h] at e; cases e; exact .inl hu
  · rw [h] at e; cases e; exact .inr ⟨code, info, rfl, hc⟩

/-- A completing instruction is what `exec` answers. -/
theorem exec_of_completes {i : Instr} {s t : State} (h : Completes i s t) : exec i s = .next t := by
  cases h with
  | ldi r imm => simp [exec, execLdi]
  | prn r => simp [exec, execPrn]
  | mul a b => simp [exec, execMul, execAlu, alu]
  | add a b => simp [exec, execAdd, execAlu, alu]
  | sub a b => simp [exec, execSub, execAlu, alu]
  | div a b s h => rw [exec, execDiv, execAlu, withRegs_byte, alu, if_neg h]
  | push r s h => rw [exec, execPush, withReg_byte, State.pushAddress_some.mpr ⟨h, rfl⟩]
  | pop r s h => rw [exec, execPop, withReg_byte]; exact if_neg h
  | call r s h hp =>
    rw [exec, execCall, withReg_byte, State.pushAddress_some.mpr ⟨h, rfl⟩, State.returnAddress, if_neg (by omega)]
  | ret s h => exact if_neg h
  | nop => rfl
  | hlt => rfl

/-- The fetch at a pc inside memory starts with the opcode byte. -/
theorem State.fetchBytes_inside {s : State} (h : s.pc.toNat ≤ 255) :
    s.fetchBytes = s.mem.read s.pc.toNat :: s.mem.bytesFrom (s.pc.toNat + 1) 2 := by
  rw [State.fetchBytes, maxInstrLength, Memory.bytesFrom, if_pos (by simp [Config.memSize]; omega)]

/-- A pc outside memory gives no bytes. -/
theorem State.fetchBytes_outside {s : State} (h : 255 < s.pc.toNat) : s.fetchBytes = [] := by
  rw [State.fetchBytes, maxInstrLength, Memory.bytesFrom, if_neg (by simp [Config.memSize]; omega)]

/-- An opcode byte that matches no row. -/
theorem State.fetch_unknown {s : State} (h : s.pc.toNat ≤ 255)
    (hl : defaultOpcodes.lookup (s.mem.read s.pc.toNat) = none) :
    s.fetch = .error (.unknownOpcode, zext9 (s.mem.read s.pc.toNat)) := by
  simp only [State.fetch, decode, State.fetchBytes_inside h, decodeWith, hl, fetchFault]

/-- An instruction that ends inside memory is fetched. -/
theorem State.fetch_fits {s : State} {op : Opcode} (hl : defaultOpcodes.lookup (s.mem.read s.pc.toNat) = some op)
    (h : s.pc.toNat + op.length ≤ 256) :
    ∃ i rest, decode s.fetchBytes = .ok (i, rest) ∧ s.fetch = .ok i ∧ i.opcode = op ∧
      i.operands = (s.mem.bytesFrom (s.pc.toNat + 1) 2).take op.format.operandCount := by
  have hlen : op.length = 1 + op.format.operandCount := rfl
  have h2 : op.format.operandCount ≤ 2 := by cases op <;> decide
  obtain ⟨i, e, hi, ho⟩ := Opcode.takeOperands_ok (op := op) (bytes := s.mem.bytesFrom (s.pc.toNat + 1) 2)
    (by rw [Memory.length_bytesFrom, Config.memSize]; omega)
  have hd : decode s.fetchBytes = .ok (i, (s.mem.bytesFrom (s.pc.toNat + 1) 2).drop op.format.operandCount) := by
    simp only [decode, State.fetchBytes_inside (by omega : s.pc.toNat ≤ 255), decodeWith, hl, e]
  exact ⟨i, _, hd, by simp only [State.fetch, hd], hi, ho⟩

/-- One that does not raises `OutOfBounds(256)`. -/
theorem State.fetch_overrun {s : State} {op : Opcode} (hpc : s.pc.toNat ≤ 255)
    (hl : defaultOpcodes.lookup (s.mem.read s.pc.toNat) = some op) (h : 256 < s.pc.toNat + op.length) :
    s.fetch = .error (.outOfBounds, 256) := by
  have hlen : op.length = 1 + op.format.operandCount := rfl
  have h2 : op.format.operandCount ≤ 2 := by cases op <;> decide
  have hb : (s.mem.bytesFrom (s.pc.toNat + 1) 2).length = 255 - s.pc.toNat := by
    rw [Memory.length_bytesFrom, Config.memSize]; omega
  have e := Opcode.takeOperands_error (op := op) (bytes := s.mem.bytesFrom (s.pc.toNat + 1) 2) (by omega)
  simp only [State.fetch, decode, State.fetchBytes_inside hpc, decodeWith, hl, e, fetchFault, hb]
  have : s.pc + BitVec.ofNat 9 (255 - s.pc.toNat + 1) = 256 := by
    apply BitVec.eq_of_toNat_eq
    rw [BitVec.toNat_add, BitVec.toNat_ofNat]
    simp
    omega
  rw [this]

/-- A pc outside memory. -/
theorem State.fetch_outside {s : State} (h : 255 < s.pc.toNat) : s.fetch = .error (.outOfBounds, s.pc) := by
  simp only [State.fetch, decode, State.fetchBytes_outside h, decodeWith, fetchFault]

/-- Everything a fetch can end in: an instruction, at a pc inside memory, or a fault that names what is wrong. -/
theorem State.fetch_cases {s : State} (hpc : s.pc.toNat ≤ 258) :
    (s.pc.toNat ≤ 255 ∧ ∃ i, s.fetch = .ok i ∧
      defaultOpcodes.lookup (s.mem.read s.pc.toNat) = some i.opcode ∧ s.pc.toNat + i.opcode.length ≤ 256) ∨
    (∃ code info, s.fetch = .error (code, info) ∧ code ≠ .none ∧ code.infoInRange info) := by
  by_cases h : s.pc.toNat ≤ 255
  · cases hl : defaultOpcodes.lookup (s.mem.read s.pc.toNat) with
    | none =>
      refine .inr ⟨_, _, State.fetch_unknown h hl, by decide, ?_⟩
      have := (s.mem.read s.pc.toNat).isLt
      simp only [FaultCode.infoInRange, zext9_toNat]
      omega
    | some op =>
      by_cases hf : s.pc.toNat + op.length ≤ 256
      · obtain ⟨i, _, _, e, rfl, _⟩ := State.fetch_fits hl hf
        exact .inl ⟨h, i, e, rfl, hf⟩
      · exact .inr ⟨_, _, State.fetch_overrun h hl (by omega), by decide, by decide, by decide⟩
  · exact .inr ⟨_, _, State.fetch_outside (by omega), by decide, by simp only [FaultCode.infoInRange]; omega⟩

/-- A step whose fetch gives an instruction runs it. -/
theorem step_of_fetch_ok {s : State} {i : Instr} (hs : s.Stepping) (h : s.fetch = .ok i) : step s = exec i s := by
  simp only [step, if_pos hs, h]

/-- A step whose fetch faults records the fault. -/
theorem step_of_fetch_error {s : State} {code : FaultCode} {info : PcWord} (hs : s.Stepping)
    (h : s.fetch = .error (code, info)) : step s = .next (s.recordFault code info) := by
  simp only [step, if_pos hs, h, raise_eq]

/-- Everything a step can do: nothing, one instruction, or one fault of the fetch. -/
theorem step_cases {s t : State} (hpc : s.pc.toNat ≤ 258) (h : step s = .next t) :
    (¬ s.Stepping ∧ t = s) ∨
    (s.Stepping ∧ s.pc.toNat ≤ 255 ∧ ∃ i, exec i s = .next t ∧
      defaultOpcodes.lookup (s.mem.read s.pc.toNat) = some i.opcode ∧ s.pc.toNat + i.opcode.length ≤ 256) ∨
    (s.Stepping ∧ ∃ code info, t = s.recordFault code info ∧ code ≠ .none ∧ code.infoInRange info) := by
  unfold step at h
  split at h
  · rename_i hs
    obtain ⟨hp, i, e, hop, hlen⟩ | ⟨code, info, e, hc, hr⟩ := State.fetch_cases hpc
    · rw [e] at h
      exact .inr (.inl ⟨hs, hp, i, h, hop, hlen⟩)
    · rw [e] at h
      cases h
      exact .inr (.inr ⟨hs, code, info, rfl, hc, hr⟩)
  · rename_i hs
    cases h
    exact .inl ⟨hs, rfl⟩

end Sys2Proof.Machine
end

