-- ==== Sys2Proof/Laws/Host.lean ====
section
/-!
SUPPORT. The checks of the host's operations, each said once.
-/

namespace Sys2Proof.Machine

theorem whenIdle_busy {α : Type} {s : State} (h : s.Stepping) (k : Except HostError α) :
    whenIdle s k = .error .busy := if_pos h

theorem whenIdle_idle {α : Type} {s : State} (h : ¬ s.Stepping) (k : Except HostError α) : whenIdle s k = k := if_neg h

theorem byteOfInt_valid {v : Int} (h : 0 ≤ v ∧ v ≤ 255) : byteOfInt v = some (BitVec.ofInt 8 v) := if_pos h

theorem byteOfInt_invalid {v : Int} (h : ¬ (0 ≤ v ∧ v ≤ 255)) : byteOfInt v = none := if_neg h

/-- A byte taken from an integer in range has that value. -/
theorem toNat_ofInt_byte {v : Int} (h : 0 ≤ v ∧ v ≤ 255) : (BitVec.ofInt 8 v).toNat = v.toNat := by
  simp only [BitVec.toNat_ofInt]
  omega

theorem indexOfInt_reg (r : Reg) : indexOfInt r.val = some (BitVec.ofFin r) := by
  fin_cases r <;> rfl

theorem indexOfInt_invalid {i : Int} (h : ¬ (0 ≤ i ∧ i ≤ 7)) : indexOfInt i = none := if_neg h

/-- A read leaves the state as it was. -/
theorem HostReply.ofRead_state (s : State) (r : Except HostError Byte) : (HostReply.ofRead s r).2 = s := by
  cases r <;> rfl

/-- A write ends in the state it made, or where it fails in the old one. -/
theorem HostReply.ofWrite_cases (s : State) (r : Except HostError State) :
    (∃ t, r = .ok t ∧ HostReply.ofWrite s r = (.done, t)) ∨
    (∃ e, r = .error e ∧ HostReply.ofWrite s r = (.failed e, s)) := by
  cases r with
  | ok t => exact .inl ⟨t, rfl, rfl⟩
  | error e => exact .inr ⟨e, rfl, rfl⟩

end Sys2Proof.Machine
end

