-- ==== Sys2Proof/Laws/PerInstr.lean ====
section
/-!
SUPPORT. Claims about every instruction as syntax, one lemma per constructor.
-/

namespace Sys2Proof

/-- The length an instruction's opcode announces is the number of its bytes (spec/30_encoding.md rule R84). -/
def Laws.EncodedLength.Statement (i : Instr) : Prop := (encode i).length = i.opcode.length

theorem Laws.EncodedLength.ldi (a imm : Byte) : Laws.EncodedLength.Statement (.ldi a imm) := rfl
theorem Laws.EncodedLength.prn (a : Byte) : Laws.EncodedLength.Statement (.prn a) := rfl
theorem Laws.EncodedLength.mul (a b : Byte) : Laws.EncodedLength.Statement (.mul a b) := rfl
theorem Laws.EncodedLength.add (a b : Byte) : Laws.EncodedLength.Statement (.add a b) := rfl
theorem Laws.EncodedLength.sub (a b : Byte) : Laws.EncodedLength.Statement (.sub a b) := rfl
theorem Laws.EncodedLength.div (a b : Byte) : Laws.EncodedLength.Statement (.div a b) := rfl
theorem Laws.EncodedLength.push (a : Byte) : Laws.EncodedLength.Statement (.push a) := rfl
theorem Laws.EncodedLength.pop (a : Byte) : Laws.EncodedLength.Statement (.pop a) := rfl
theorem Laws.EncodedLength.call (a : Byte) : Laws.EncodedLength.Statement (.call a) := rfl
theorem Laws.EncodedLength.ret : Laws.EncodedLength.Statement .ret := rfl
theorem Laws.EncodedLength.nop : Laws.EncodedLength.Statement .nop := rfl
theorem Laws.EncodedLength.hlt : Laws.EncodedLength.Statement .hlt := rfl

end Sys2Proof
end

