-- ==== Sys2Proof/Laws/Run.lean ====
section
/-!
SUPPORT. Runs of the core, as `Host.Core.run` counts them.
-/

namespace Sys2Proof.Machine

theorem Reaches.zero (s : State) : Reaches 0 s s := rfl

/-- A run of `k + 1` steps is one step and then `k`. -/
theorem reaches_succ_of_step {s t u : State} {k : Nat} (h : step s = .next t) :
    Reaches (k + 1) s u ↔ Reaches k t u := by
  have hc : Sys2Proof.core.step s = .next t := h
  unfold Reaches
  simp only [Host.Core.run, hc]

/-- Runs join. -/
theorem Reaches.trans {s t u : State} {j k : Nat} (total : ∀ v : State, ∃ w, step v = .next w) (h : Reaches j s t)
    (h' : Reaches k t u) : Reaches (j + k) s u := by
  induction j generalizing s with
  | zero => cases h; simpa using h'
  | succ j ih =>
    obtain ⟨v, hv⟩ := total s
    rw [reaches_succ_of_step hv] at h
    rw [show j + 1 + k = j + k + 1 by omega, reaches_succ_of_step hv]
    exact ih h

end Sys2Proof.Machine
end

