-- ==== Sys2Proof/Tests/Slice0.lean ====
section
/-!
SUPPORT. The model's own tests. Expected results are the spec's: opcode words from spec/opcode_table.json, vectors V1 to
V99 and H1 to H9 and scenarios S2, S6 from spec/95_test_vectors.md. The last part shows, for every statement with
hypotheses, a concrete state and operands that meet them.
-/

namespace Sys2Proof.Tests

open Sys2Proof.Machine

/-! ### Helpers -/

/-- The reset state, started, with the pc at `pc` and `bytes` stored there: how spec/95_test_vectors.md starts a vector. -/
def at_ (pc : PcWord) (bytes : List Byte) : State :=
  { State.reset with started := true, pc := pc, mem := Memory.writeBytes [] pc.toNat bytes }

/-- Overrides a register. -/
def setX (r : Reg) (v : Byte) (s : State) : State := { s with x := s.x.set r v }

/-- Overrides a memory cell. -/
def setM (a : Nat) (v : Byte) (s : State) : State := { s with mem := s.mem.write a v }

/-- The state a meaning or a step answers. -/
def ofResult (fallback : State) : Result → State
  | .next t => t
  | .fault _ => fallback
  | .refused _ => fallback

/-- One step. -/
def stepped (s : State) : State := ofResult State.reset (step s)

/-- The fault a state records, and its pc. -/
def faultOf (s : State) : RunState × FaultCode × PcWord × PcWord := (s.runState, s.faultCode, s.faultInfo, s.pc)

/-! ### WellFormed: an ill-formed term for each check (R82, R106) -/

theorem test_ldi_a_ill_formed : (Instr.ldi 8 0).wellFormed = false := by decide
theorem test_prn_a_ill_formed : (Instr.prn 0xC8).wellFormed = false := by decide
theorem test_mul_a_ill_formed : (Instr.mul 8 0).wellFormed = false := by decide
theorem test_mul_b_ill_formed : (Instr.mul 0 8).wellFormed = false := by decide
theorem test_add_a_ill_formed : (Instr.add 9 0).wellFormed = false := by decide
theorem test_add_b_ill_formed : (Instr.add 0 8).wellFormed = false := by decide
theorem test_sub_a_ill_formed : (Instr.sub 255 0).wellFormed = false := by decide
theorem test_sub_b_ill_formed : (Instr.sub 7 16).wellFormed = false := by decide
theorem test_div_a_ill_formed : (Instr.div 128 1).wellFormed = false := by decide
theorem test_div_b_ill_formed : (Instr.div 1 128).wellFormed = false := by decide
theorem test_push_a_ill_formed : (Instr.push 8).wellFormed = false := by decide
theorem test_pop_a_ill_formed : (Instr.pop 9).wellFormed = false := by decide
theorem test_call_a_ill_formed : (Instr.call 8).wellFormed = false := by decide
theorem test_register_seven_and_any_immediate_well_formed :
    (Instr.ldi 7 255).wellFormed = true ∧ (Instr.div 7 7).wellFormed = true ∧ Instr.ret.wellFormed = true := by decide

/-! ### Decode: the word of every instruction, bit by bit from spec/opcode_table.json -/

theorem test_decode_ldi : decode [0b10000010, 0b00000011, 0b11111111] = .ok (.ldi 3 255, []) := rfl
theorem test_decode_prn : decode [0b01000111, 0b00000010] = .ok (.prn 2, []) := rfl
theorem test_decode_mul : decode [0b10100010, 0b00000011, 0b00000100] = .ok (.mul 3 4, []) := rfl
theorem test_decode_add : decode [0b10100000, 0b00000010, 0b00000101] = .ok (.add 2 5, []) := rfl
theorem test_decode_sub : decode [0b10100001, 0b00000100, 0b00000001] = .ok (.sub 4 1, []) := rfl
theorem test_decode_div : decode [0b10100011, 0b00000101, 0b00000110] = .ok (.div 5 6, []) := rfl
theorem test_decode_push : decode [0b01000101, 0b00000111] = .ok (.push 7, []) := rfl
theorem test_decode_pop : decode [0b01000110, 0b00000001] = .ok (.pop 1, []) := rfl
theorem test_decode_call : decode [0b01010000, 0b00000110] = .ok (.call 6, []) := rfl
theorem test_decode_ret_leaves_the_rest : decode [0b00010001, 7, 9] = .ok (.ret, [7, 9]) := rfl
theorem test_decode_nop : decode [0b00000000] = .ok (.nop, []) := rfl
theorem test_decode_hlt : decode [0b00000001] = .ok (.hlt, []) := rfl
theorem test_decode_whole_register_byte : decode [0b01000111, 0b11001000] = .ok (.prn 200, []) := rfl
theorem test_decode_unknown_not_skipped : decode [0x83, 9] = .error (.unknownOpcode 0x83) := rfl
theorem test_decode_truncated :
    decode [] = .error .noOpcode ∧ decode [0x82] = .error (.missingOperand 1) ∧
    decode [0x82, 0] = .error (.missingOperand 2) ∧ decode [0x47] = .error (.missingOperand 1) := ⟨rfl, rfl, rfl, rfl⟩
theorem test_table_word_layout :
    decodeTableWord 24 0x080082 = some (.ldi 0 8) ∧ decodeTableWord 8 0x080082 = some (.ldi 0 0) ∧
    decodeTableWord 8 0x11 = some .ret ∧ decodeTableWord 8 0xFF = none := by decide
theorem test_reset_runs_the_placed_word :
    step (State.reset.withFetchWord 8 0x82) = exec (.ldi 0 0) (State.reset.withFetchWord 8 0x82) ∧
    step (State.reset.withFetchWord 24 0x0307A2) = exec (.mul 7 3) (State.reset.withFetchWord 24 0x0307A2) := ⟨rfl, rfl⟩

/-! ### Instructions: vectors of spec/95_test_vectors.md -/

/-- V2 -/
theorem test_ldi_max_immediate :
    (stepped (at_ 0 [0x82, 3, 0xFF])).x[3] = 255 ∧ (stepped (at_ 0 [0x82, 3, 0xFF])).pc = 3 := by decide
/-- V5, V97 -/
theorem test_ldi_at_253_then_fetch_faults :
    (stepped (at_ 253 [0x82, 0, 9])).pc = 256 ∧
    faultOf (stepped (stepped (at_ 253 [0x82, 0, 9]))) = (.halted, .outOfBounds, 256, 256) := by decide
/-- V9 -/
theorem test_prn_emits_sp : (stepped (at_ 0 [0x47, 7])).out = [244] := by decide
/-- V11 -/
theorem test_prn_at_254 :
    (stepped (setX 2 255 (at_ 254 [0x47, 2]))).out = [255] ∧ (stepped (setX 2 255 (at_ 254 [0x47, 2]))).pc = 256 := by
  decide
/-- V30, V32 -/
theorem test_mul_wraps :
    (stepped (setX 0 4 (setX 1 6 (at_ 0 [0xA2, 0, 1])))).x[0] = 24 ∧
    (stepped (setX 0 255 (setX 1 255 (at_ 0 [0xA2, 0, 1])))).x[0] = 1 := by decide
/-- V33 -/
theorem test_mul_same_register_squares : (stepped (setX 3 15 (at_ 0 [0xA2, 3, 3]))).x[3] = 225 := by decide
/-- V21 -/
theorem test_add_wraps : (stepped (setX 0 200 (setX 1 100 (at_ 0 [0xA0, 0, 1])))).x[0] = 44 := by decide
/-- V44 -/
theorem test_add_moves_sp : (stepped (setX 0 1 (at_ 0 [0xA0, 7, 0]))).x[7] = 245 := by decide
/-- V27 -/
theorem test_sub_first_minus_second :
    (stepped (setX 0 3 (setX 1 5 (at_ 0 [0xA1, 0, 1])))).x[0] = 254 ∧
    (stepped (setX 0 3 (setX 1 5 (at_ 0 [0xA1, 0, 1])))).x[1] = 5 := by decide
/-- V36, V43 -/
theorem test_div_unsigned_floor :
    (stepped (setX 0 255 (setX 1 2 (at_ 0 [0xA3, 0, 1])))).x[0] = 127 ∧
    (stepped (setX 0 250 (at_ 0 [0xA3, 0, 7]))).x[0] = 1 := by decide
/-- V38 -/
theorem test_div_by_zero :
    stepped (setX 0 9 (at_ 0 [0xA3, 0, 1])) =
      { setX 0 9 (at_ 0 [0xA3, 0, 1]) with runState := .halted, faultCode := .divisionByZero } := by decide
/-- V51 -/
theorem test_push_r7_stores_decremented_sp :
    (stepped (at_ 0 [0x45, 7])).x[7] = 243 ∧ (stepped (at_ 0 [0x45, 7])).mem.read 243 = 243 := by decide
/-- V56: the byte lands at the next fetch address -/
theorem test_push_is_fetched_next :
    (stepped (stepped (setX 1 1 (setX 7 7 (at_ 4 [0x45, 1]))))).runState = .halted ∧
    (stepped (stepped (setX 1 1 (setX 7 7 (at_ 4 [0x45, 1]))))).faultCode = .none := by decide
/-- V61 -/
theorem test_pop_r7_increments_the_popped_byte :
    (stepped (setX 7 243 (setM 243 32 (at_ 0 [0x46, 7])))).x[7] = 33 := by decide
/-- V59 -/
theorem test_pop_underflow_writes_no_register :
    stepped (setX 7 255 (setM 255 5 (at_ 0 [0x46, 0]))) =
      { setX 7 255 (setM 255 5 (at_ 0 [0x46, 0])) with runState := .halted, faultCode := .stackUnderflow } := by decide
/-- V71 -/
theorem test_call_r7_jumps_to_decremented_sp :
    (stepped (at_ 10 [0x50, 7])).pc = 243 ∧ (stepped (at_ 10 [0x50, 7])).mem.read 243 = 12 := by decide
/-- V73, V74 -/
theorem test_call_at_254_and_fault_order :
    faultOf (stepped (setX 0 5 (at_ 254 [0x50, 0]))) = (.halted, .outOfBounds, 256, 254) ∧
    faultOf (stepped (setX 7 0 (at_ 254 [0x50, 0]))) = (.halted, .stackOverflow, 0, 254) := by decide
/-- V79, V82 -/
theorem test_ret :
    (stepped (setX 7 243 (setM 243 8 (at_ 29 [0x11])))).pc = 8 ∧
    (stepped (setX 7 243 (setM 243 8 (at_ 29 [0x11])))).x[7] = 244 ∧
    faultOf (stepped (stepped (setX 7 254 (setM 254 255 (at_ 255 [0x11]))))) = (.halted, .stackUnderflow, 0, 255) := by
  decide
/-- V91 -/
theorem test_nop_at_255 : stepped (at_ 255 [0]) = { at_ 255 [0] with pc := 256 } := by decide
/-- V93, and the line after V99: a halted core stays as it is -/
theorem test_hlt_at_255_and_stays :
    faultOf (stepped (at_ 255 [1])) = (.halted, .none, 0, 255) ∧
    stepped (stepped (at_ 255 [1])) = stepped (at_ 255 [1]) := by decide

/-! ### Fetch, decode and operand faults -/

/-- V6, V7, V12 -/
theorem test_operand_beyond_memory :
    faultOf (stepped (at_ 254 [0x82, 0])) = (.halted, .outOfBounds, 256, 254) ∧
    faultOf (stepped (at_ 255 [0x82])) = (.halted, .outOfBounds, 256, 255) ∧
    faultOf (stepped (at_ 255 [0x47])) = (.halted, .outOfBounds, 256, 255) := by decide
/-- V25, V55: operand a first, register index before the stack -/
theorem test_register_operand_order :
    faultOf (stepped (at_ 0 [0xA0, 9, 8])) = (.halted, .outOfBounds, 9, 0) ∧
    faultOf (stepped (setX 7 0 (at_ 0 [0x45, 8]))) = (.halted, .outOfBounds, 8, 0) := by decide
/-- V95, V96, V98 -/
theorem test_unknown_opcode_and_fetch_bound :
    faultOf (stepped (at_ 255 [2])) = (.halted, .unknownOpcode, 2, 255) ∧
    faultOf (stepped (at_ 254 [0x83, 9])) = (.halted, .unknownOpcode, 131, 254) ∧
    faultOf (stepped (at_ 258 [])) = (.halted, .outOfBounds, 258, 258) := by decide

/-! ### The host: H1 to H9 -/

theorem test_h1_register_round_trip :
    (writeRegister 3 200 State.reset).bind (readRegister 3) = .ok 200 := rfl
theorem test_h2_h3_registers :
    readRegister 7 State.reset = .ok 244 ∧ readRegister 8 State.reset = .error .outOfBounds := ⟨rfl, rfl⟩
theorem test_h4_h5_memory :
    (writeMemory 255 7 State.reset).bind (readMemory 255) = .ok 7 ∧
    readMemory 256 State.reset = .error .outOfBounds := ⟨rfl, rfl⟩
theorem test_h8_cells_beyond_the_program_are_kept :
    ((writeMemory 1 9 State.reset).bind (loadProgram [1])).map (fun s => (s.mem.read 0, s.mem.read 1)) = .ok (1, 9) := rfl
theorem test_h9_empty_program : loadProgram [] State.reset = .ok State.reset := rfl
theorem test_text_of_s6 :
    renderOut [17] = ['1', '7', '\n'] ∧ assembly (.ldi 0 8) = ['L', 'D', 'I', ' ', 'R', '0', ',', '8'] := by decide

/-! ### Witnesses: the hypotheses of every statement can be met -/

theorem witness_FirstInstructionIsAtAddressZero :
    ([1] : List Byte).length ≤ 256 ∧ decode [1] = .ok (.hlt, []) := ⟨by decide, rfl⟩
theorem witness_LoadProgramWritesItsBytesOnly :
    ¬ State.reset.Stepping ∧ (List.replicate 256 (1 : Byte)).length ≤ 256 ∧ State.reset.mem.wf = true ∧
    256 < (List.replicate 257 (1 : Byte)).length := ⟨by decide, by rw [List.length_replicate], rfl, by rw [List.length_replicate]; decide⟩
theorem witness_HostMemoryAccess :
    ¬ State.reset.Stepping ∧ State.reset.mem.wf = true ∧ ((0 : Int) ≤ 255 ∧ (255 : Int) ≤ 255) ∧
    ¬ ((0 : Int) ≤ 256 ∧ (256 : Int) ≤ 255) ∧ ¬ ((0 : Int) ≤ -1 ∧ (-1 : Int) ≤ 255) := by decide
theorem witness_HostRegisterRoundTrip :
    ¬ State.reset.Stepping ∧ ((0 : Int) ≤ 255 ∧ (255 : Int) ≤ 255) ∧ ¬ ((0 : Int) ≤ 256 ∧ (256 : Int) ≤ 255) ∧
    ¬ ((0 : Int) ≤ 8 ∧ (8 : Int) ≤ 7) ∧ ¬ ((0 : Int) ≤ -1 ∧ (-1 : Int) ≤ 7) := by decide
theorem witness_RunOnlyStartsTheCore :
    (¬ State.reset.Stepping ∧ State.reset.runState = .running) ∧
    (¬ (stepped (at_ 0 [1])).Stepping ∧ (stepped (at_ 0 [1])).runState = .halted) := by decide
theorem witness_HostActsOnlyWhileNotStepping :
    (at_ 0 []).Stepping ∧ ¬ State.reset.Stepping ∧ (hostCall .run (at_ 0 [])).1 = .failed .busy := by decide
theorem witness_FailedHostCallChangesNothing : (hostCall (.readMemory 256) State.reset).1 = .failed .outOfBounds := rfl
theorem witness_Inv : (at_ 0 [1]).Inv := ⟨by decide, fun _ => rfl, rfl, by decide⟩
theorem witness_HostCallKeepsInvariant : (at_ 0 [1]).Inv := witness_Inv
/-- a core that is not started, and one that is HALTED, with memory written -/
theorem witness_ResetInputResets : ¬ State.reset.Stepping ∧ ¬ (stepped (at_ 3 [1])).Stepping := by decide
/-- R225: no cancel. -/
theorem test_reset_is_no_cancel : hostCall .reset (at_ 3 [1]) = (.failed .busy, at_ 3 [1]) := rfl
/-- the default assignment and another one, so that the statement is not about one assignment -/
theorem witness_DecodeOfEncodeIsTheInstruction :
    defaultOpcodes.Distinct ∧ (OpcodeBytes.mk 1 2 3 4 5 6 7 8 9 10 11 12).Distinct := by decide
theorem witness_DecodedBytesAreTheEncoding : decodeWith defaultOpcodes [0x47, 2, 9] = .ok (.prn 2, [9]) := rfl
theorem witness_OtherBytesAreUnknownOpcodes :
    (at_ 255 [2]).Stepping ∧ (at_ 255 [2]).pc.toNat ≤ 255 ∧
    (at_ 255 [2]).mem.read (at_ 255 [2]).pc.toNat ∉ defaultOpcodes.bytes := by decide
theorem witness_StepRunsTheDecodedInstruction :
    (at_ 254 [0x45, 1]).Stepping ∧ decode (at_ 254 [0x45, 1]).fetchBytes = .ok (.push 1, []) := ⟨by decide, rfl⟩
theorem witness_StepRunsTheInstructionInMemory :
    (at_ 254 [0x45, 1]).Stepping ∧ (at_ 254 [0x45, 1]).pc.toNat + (Instr.push 1).opcode.length ≤ 256 ∧
    ∀ k v, (encode (.push 1))[k]? = some v →
      (at_ 254 [0x45, 1]).mem.read ((at_ 254 [0x45, 1]).pc.toNat + k) = v := by
  refine ⟨by decide, by decide, fun k v h => ?_⟩
  match k with
  | 0 => cases h; rfl
  | 1 => cases h; rfl
  | k + 2 => cases h
theorem witness_CoreThatIsNotSteppingStaysAsItIs :
    ¬ State.reset.Stepping ∧ ¬ (stepped (at_ 0 [1])).Stepping := by decide
theorem witness_HaltedIsAbsorbing : (stepped (at_ 0 [1])).runState = .halted := by decide
theorem witness_OpcodeFetch :
    (at_ 255 []).pc.toNat ≤ 255 ∧ (at_ 256 []).Stepping ∧ 255 < (at_ 256 []).pc.toNat := by decide
theorem witness_RegisterOperandsAreValidated :
    (Instr.mul 9 8).registerOperands.find? (fun n => 7 < n.toNat) = some 9 ∧
    (Instr.mul 7 8).registerOperands.find? (fun n => 7 < n.toNat) = some 8 ∧
    (Instr.pop 255).registerOperands.find? (fun n => 7 < n.toNat) = some 255 := by decide
theorem witness_invalid_register_byte : 7 < (8 : Byte).toNat ∧ 7 < (255 : Byte).toNat := by decide
/-- the operand-fetch clause of LDI, PRN, MUL, ADD, SUB, DIV, PUSH, POP, CALL, at the last address that can fault -/
theorem witness_OperandFetchFaults :
    ∀ op ∈ [Opcode.ldi, .prn, .mul, .add, .sub, .div, .push, .pop, .call],
      (at_ 255 [defaultOpcodes.byte op]).Stepping ∧ (at_ 255 [defaultOpcodes.byte op]).pc.toNat ≤ 255 ∧
      (at_ 255 [defaultOpcodes.byte op]).mem.read (at_ 255 [defaultOpcodes.byte op]).pc.toNat = defaultOpcodes.byte op ∧
      256 < (at_ 255 [defaultOpcodes.byte op]).pc.toNat + op.length := by decide
/-- the same clause at 254, for the three-byte instructions -/
theorem witness_OperandFetchFaults_at_254 :
    ∀ op ∈ [Opcode.ldi, .mul, .add, .sub, .div],
      (at_ 254 [defaultOpcodes.byte op]).Stepping ∧
      (at_ 254 [defaultOpcodes.byte op]).mem.read (at_ 254 [defaultOpcodes.byte op]).pc.toNat = defaultOpcodes.byte op ∧
      256 < (at_ 254 [defaultOpcodes.byte op]).pc.toNat + op.length := by decide
theorem witness_RunsAtEveryAddress :
    ∀ i ∈ [Instr.ret, .nop, .hlt],
      (at_ 255 [defaultOpcodes.byte i.opcode]).Stepping ∧ (at_ 255 [defaultOpcodes.byte i.opcode]).pc.toNat ≤ 255 ∧
      (at_ 255 [defaultOpcodes.byte i.opcode]).mem.read (at_ 255 [defaultOpcodes.byte i.opcode]).pc.toNat =
        defaultOpcodes.byte i.opcode := by decide
theorem witness_DivWritesTheQuotientOrFaults : State.reset.x[7] ≠ 0 ∧ State.reset.x[(1 : Reg)] = 0 := by decide
theorem witness_DivQuotientIsTheFloor :
    (setX 0 255 State.reset).x[(7 : Reg)] ≠ 0 ∧
    ∃ t, exec (.div (Reg.byte 0) (Reg.byte 7)) (setX 0 255 State.reset) = .next t := ⟨by decide, _, rfl⟩
theorem witness_PushStoresBelowTheStackPointer :
    (0 : Reg) ≠ 7 ∧ (setX 7 1 State.reset).x[7] ≠ 0 ∧ (setX 7 0 State.reset).x[7] = 0 := by decide
theorem witness_PopLoadsAtTheStackPointer :
    (0 : Reg) ≠ 7 ∧ (setX 7 254 State.reset).x[7] ≠ 255 ∧ (setX 7 255 State.reset).x[7] = 255 ∧
    State.reset.mem.read State.reset.x[7].toNat ≠ 255 ∧ (setM 244 255 State.reset).mem.read State.reset.x[7].toNat = 255 := by
  decide
theorem witness_CallPushesTheReturnAddress :
    (0 : Reg) ≠ 7 ∧ (at_ 253 []).x[7] ≠ 0 ∧ (at_ 253 []).pc.toNat + 2 ≤ 255 ∧
    (at_ 254 []).x[7] ≠ 0 ∧ 255 < (at_ 254 []).pc.toNat + 2 ∧ (setX 7 0 (at_ 254 [])).x[7] = 0 := by decide
theorem witness_RetPopsThePc : (setX 7 254 State.reset).x[7] ≠ 255 ∧ (setX 7 255 State.reset).x[7] = 255 := by decide
/-- one state for each clause: a fault, HLT, RET, CALL, and an instruction that adds its length at 255 -/
theorem witness_PcAdvancesByTheLength :
    (at_ 255 []).pc.toNat ≤ 255 ∧ (at_ 255 []).faultCode = .none ∧
    (ofResult State.reset (exec (.div 0 0) (at_ 255 []))).faultCode ≠ .none ∧
    (ofResult State.reset (exec .hlt (at_ 255 []))).faultCode = .none ∧
    (ofResult State.reset (exec .ret (at_ 255 []))).faultCode = .none ∧
    (ofResult State.reset (exec (.call 0) (at_ 253 []))).faultCode = .none ∧
    (ofResult State.reset (exec (.ldi 0 9) (at_ 255 []))).faultCode = .none ∧
    (ofResult State.reset (exec (.ldi 0 9) (at_ 255 []))).pc = 258 := by decide
/-- the frames: each instruction answers a next state, DIV also a fault's -/
theorem witness_frames (s : State) :
    (∃ t, exec (.mul 0 1) s = .next t) ∧ (∃ t, exec (.add 0 1) s = .next t) ∧ (∃ t, exec (.sub 0 1) s = .next t) ∧
    (∃ t, exec (.div 0 1) State.reset = .next t ∧ t.faultCode = .divisionByZero) ∧ (∃ t, exec (.ldi 0 1) s = .next t) ∧
    (∃ t, exec (.prn 0) s = .next t) ∧ (∃ t, exec .nop s = .next t) ∧
    (∃ t, exec (.pop 0) State.reset = .next t) ∧ (∃ t, exec .ret State.reset = .next t) ∧
    (∃ t, exec (.push 0) State.reset = .next t) ∧ (∃ t, exec (.call 0) State.reset = .next t) :=
  ⟨⟨_, rfl⟩, ⟨_, rfl⟩, ⟨_, rfl⟩, ⟨_, rfl, rfl⟩, ⟨_, rfl⟩, ⟨_, rfl⟩, ⟨_, rfl⟩, ⟨_, rfl⟩, ⟨_, rfl⟩, ⟨_, rfl⟩, ⟨_, rfl⟩⟩
theorem witness_StackStoreFrame :
    State.reset.pushAddress = some 243 ∧ (setX 7 1 State.reset).pushAddress = some 0 ∧
    (setX 7 0 State.reset).pushAddress = none := by decide
theorem witness_StepKeepsTheInvariant : (at_ 0 [1]).Inv ∧ ∃ t, step (at_ 0 [1]) = .next t := ⟨witness_Inv, _, rfl⟩
/-- a step that records a fault, from a state that meets the hypotheses -/
theorem witness_StepKeepsFaultTruthful :
    (at_ 0 [0xFF]).Inv ∧ (at_ 0 [0xFF]).FaultTruthful ∧
    ∃ t, step (at_ 0 [0xFF]) = .next t ∧ t.faultCode = .unknownOpcode :=
  ⟨⟨by decide, fun _ => rfl, rfl, by decide⟩, fun h => absurd rfl h, _, rfl, rfl⟩
theorem witness_StepKeepsCleanHaltAtHlt :
    (at_ 0 [1]).Inv ∧ (at_ 0 [1]).CleanHaltAtHlt ∧ ∃ t, step (at_ 0 [1]) = .next t ∧ t.runState = .halted :=
  ⟨witness_Inv, nofun, _, rfl, rfl⟩
theorem witness_FaultingStepWritesOnlyTheStatus :
    (at_ 0 [0xFF]).faultCode = .none ∧ ∃ t, step (at_ 0 [0xFF]) = .next t ∧ t.faultCode ≠ .none :=
  ⟨rfl, _, rfl, by decide⟩
theorem witness_HaltedOnlyByHltOrFault :
    (at_ 0 [1]).runState = .running ∧ (at_ 0 [1]).faultCode = .none ∧ (∃ t, exec .hlt (at_ 0 [1]) = .next t) ∧
    (stepped (at_ 0 [1])).runState = .halted ∧ (∃ t, exec .nop (stepped (at_ 0 [1])) = .next t) ∧
    (∃ t, step (stepped (at_ 0 [1])) = .next t) ∧ HostCall.run ≠ .reset :=
  ⟨rfl, rfl, ⟨_, rfl⟩, by decide, ⟨_, rfl⟩, ⟨_, rfl⟩, by decide⟩
theorem witness_OnlyPushAndCallWriteMemory :
    ∃ t, exec (.push 0) (setX 0 1 State.reset) = .next t ∧ t.mem ≠ (setX 0 1 State.reset).mem :=
  ⟨_, rfl, by decide⟩
theorem witness_OnlyPopAndRetReadMemoryAsData :
    Instr.call 0 ≠ .ret ∧ (∀ a, Instr.call 0 ≠ .pop a) ∧ ∃ t, exec (.call 0) State.reset = .next t :=
  ⟨by decide, nofun, _, rfl⟩
theorem witness_OutputIsWrittenOnlyByPrn : ∃ t, exec (.prn 7) State.reset = .next t ∧ t.out = [244] := ⟨_, rfl, rfl⟩
theorem witness_PushThenPopIsLastInFirstOut :
    State.reset.mem.wf = true ∧ (setX 7 1 State.reset).x[7] ≠ 0 ∧ (0 : Reg) ≠ 7 ∧ (1 : Reg) ≠ 7 ∧ (0 : Reg) ≠ 1 ∧
    2 ≤ (setX 7 2 State.reset).x[7].toNat := by decide
/-- the call, and the state it leaves taken for the state of the return -/
theorem witness_ReturnResumesAfterTheCall :
    State.reset.mem.wf = true ∧ State.reset.faultCode = .none ∧
    ∃ t v, exec (.call 1) State.reset = .next t ∧ t.faultCode = .none ∧ t.mem.wf = true ∧
      exec (.call 2) t = .next v ∧ v.faultCode = .none ∧ v.mem.read t.x[7].toNat = t.mem.read t.x[7].toNat :=
  ⟨rfl, rfl, _, _, rfl, rfl, by decide, rfl, rfl, by decide⟩
theorem witness_LdiPushRetJumps :
    State.reset.mem.wf = true ∧ (0 : Reg) ≠ 7 ∧ (setX 7 1 State.reset).x[7] ≠ 0 := by decide
theorem witness_StackLimits : (0 : Reg) ≠ 7 ∧ State.reset.x[7].toNat = 244 := by decide

end Sys2Proof.Tests
end

section
/-!
What moves `run_state` (spec/10_state.md rule R31): of the instructions HLT and the faults, of the host's operations
reset alone.
-/

namespace Sys2Proof.Machine

/-! ### Instructions -/

/-- A completed instruction leaves the core HALTED exactly when it is HLT or found it so. -/
theorem Completes.runState_halted_iff {i : Instr} {s t : State} (h : Completes i s t) :
    t.runState = .halted ↔ i = .hlt ∨ s.runState = .halted := by
  cases h <;> simp

/-- No instruction that completes, HLT included, writes `fault_code`. -/
theorem Completes.faultCode_eq {i : Instr} {s t : State} (h : Completes i s t) : t.faultCode = s.faultCode := by
  cases h <;> rfl

theorem exec_halts_iff {i : Instr} {s t : State} (hrun : s.runState = .running) (hcode : s.faultCode = .none)
    (h : exec i s = .next t) : t.runState = .halted ↔ i = .hlt ∨ t.faultCode ≠ .none := by
  obtain hcompletes | ⟨code, info, rfl, hne, -⟩ := exec_cases h
  · simp [hcompletes.runState_halted_iff, hcompletes.faultCode_eq, hrun, hcode]
  · simp [hne]

theorem exec_keeps_halted {i : Instr} {s t : State} (hs : s.runState = .halted) (h : exec i s = .next t) :
    t.runState = .halted := by
  obtain hcompletes | ⟨code, info, rfl, -⟩ := exec_cases h
  · exact hcompletes.runState_halted_iff.mpr (.inr hs)
  · rfl

/-! ### Steps -/

theorem State.not_stepping_of_halted {s : State} (hs : s.runState = .halted) : ¬ s.Stepping := by
  simp [State.Stepping, hs]

theorem step_of_not_stepping {s : State} (hs : ¬ s.Stepping) : step s = .next s := if_neg hs

theorem step_keeps_halted {s t : State} (hs : s.runState = .halted) (h : step s = .next t) :
    t.runState = .halted := by
  rw [step_of_not_stepping (State.not_stepping_of_halted hs)] at h
  cases h
  exact hs

/-! ### The host's operations -/

/-- An operation that succeeds was made on a core that is not stepping. -/
theorem whenIdle_eq_ok {α : Type} {s : State} {k : Except HostError α} {v : α} :
    whenIdle s k = .ok v ↔ ¬ s.Stepping ∧ k = .ok v := by
  by_cases hs : s.Stepping
  · simp [whenIdle_busy hs, hs]
  · simp [whenIdle_idle hs, hs]

theorem orFail_eq_ok {α : Type} {e : HostError} {o : Option α} {v : α} : orFail e o = .ok v ↔ o = some v := by
  cases o <;> simp [orFail]

/-- Two checked arguments, the first before the second: the operation succeeds when both do. -/
theorem orFail_bind_orFail_eq_ok {α β γ : Type} {e₁ e₂ : HostError} {o₁ : Option α} {o₂ : Option β} {f : α → β → γ}
    {w : γ} : (do let u ← orFail e₁ o₁; let v ← orFail e₂ o₂; pure (f u v)) = .ok w ↔
      ∃ u v, o₁ = some u ∧ o₂ = some v ∧ f u v = w := by
  cases o₁ <;> cases o₂ <;> simp [orFail, bind, Except.bind, pure, Except.pure]

theorem loadProgram_eq_ok {program : List Byte} {s t : State} :
    loadProgram program s = .ok t ↔
      ¬ s.Stepping ∧ program.length ≤ Config.memSize ∧ { s with mem := s.mem.writeBytes loadBase program } = t := by
  rw [loadProgram, whenIdle_eq_ok]
  by_cases hlen : program.length > Config.memSize
  · simp [hlen, Nat.not_le.mpr hlen]
  · simp [hlen, Nat.not_lt.mp hlen]

theorem writeMemory_eq_ok {address value : Int} {s t : State} :
    writeMemory address value s = .ok t ↔ ¬ s.Stepping ∧ ∃ addr v, byteOfInt address = some addr ∧
      byteOfInt value = some v ∧ s.writeMem addr v = t :=
  whenIdle_eq_ok.trans (and_congr_right' orFail_bind_orFail_eq_ok)

theorem writeRegister_eq_ok {r value : Int} {s t : State} :
    writeRegister r value s = .ok t ↔ ¬ s.Stepping ∧ ∃ index v, indexOfInt r = some index ∧
      byteOfInt value = some v ∧ s.writeReg index.toFin v = t :=
  whenIdle_eq_ok.trans (and_congr_right' orFail_bind_orFail_eq_ok)

/-- `run` that succeeds sets `started` on a RUNNING core and does nothing to a HALTED one. -/
theorem run_eq_ok {s t : State} :
    run s = .ok t ↔ ¬ s.Stepping ∧
      (s.runState = .running ∧ { s with started := true } = t ∨ s.runState = .halted ∧ s = t) := by
  rw [run, whenIdle_eq_ok]
  cases s.runState <;> simp

theorem loadProgram_runState {program : List Byte} {s t : State} (h : loadProgram program s = .ok t) :
    t.runState = s.runState := by
  obtain ⟨-, -, rfl⟩ := loadProgram_eq_ok.mp h
  rfl

theorem writeMemory_runState {address value : Int} {s t : State} (h : writeMemory address value s = .ok t) :
    t.runState = s.runState := by
  obtain ⟨-, addr, v, -, -, rfl⟩ := writeMemory_eq_ok.mp h
  rfl

theorem writeRegister_runState {r value : Int} {s t : State} (h : writeRegister r value s = .ok t) :
    t.runState = s.runState := by
  obtain ⟨-, index, v, -, -, rfl⟩ := writeRegister_eq_ok.mp h
  rfl

theorem run_runState {s t : State} (h : run s = .ok t) : t.runState = s.runState := by
  obtain ⟨-, ⟨-, rfl⟩ | ⟨-, rfl⟩⟩ := run_eq_ok.mp h <;> rfl

/-- A write that keeps `run_state` where it succeeds keeps it, since a failure changes nothing. -/
theorem HostReply.ofWrite_runState {s : State} {r : Except HostError State}
    (h : ∀ {t}, r = .ok t → t.runState = s.runState) : (HostReply.ofWrite s r).2.runState = s.runState := by
  obtain ⟨t, hr, e⟩ | ⟨_, -, e⟩ := HostReply.ofWrite_cases s r
  · rw [e]; exact h hr
  · rw [e]

theorem hostCall_runState {c : HostCall} (hc : c ≠ .reset) (s : State) : (hostCall c s).2.runState = s.runState := by
  cases c with
  | reset => exact absurd rfl hc
  | loadProgram program => exact HostReply.ofWrite_runState loadProgram_runState
  | readMemory address => exact congrArg _ (HostReply.ofRead_state s _)
  | writeMemory address value => exact HostReply.ofWrite_runState writeMemory_runState
  | readRegister r => exact congrArg _ (HostReply.ofRead_state s _)
  | writeRegister r value => exact HostReply.ofWrite_runState writeRegister_runState
  | run => exact HostReply.ofWrite_runState run_runState

theorem hostCall_reset_of_idle {s : State} (hs : ¬ s.Stepping) : hostCall .reset s = (.done, State.reset) := by
  rw [hostCall, resetInput, whenIdle_idle hs, HostReply.ofWrite]

/-- Settles O45: an instruction completes or faults, which decides whether it halts a RUNNING core; a HALTED core is not
stepping, so no step moves it and reset is taken; every other host operation keeps `run_state`. -/
theorem haltedOnlyByHltOrFault : Obligations.HaltedOnlyByHltOrFault := by
  unfold Obligations.HaltedOnlyByHltOrFault
  refine ⟨fun _ _ _ => exec_halts_iff, fun _ _ _ => exec_keeps_halted, fun _ _ => step_keeps_halted, ?_, ?_⟩
  · intro c s hs hc
    rw [hostCall_runState hc, hs]
  · intro s hs
    rw [hostCall_reset_of_idle (State.not_stepping_of_halted hs)]
    rfl

end Sys2Proof.Machine
end

section
/-!
What the opcode table makes of a byte (spec/30_encoding.md section 3): a byte of a row selects that row, whatever
follows it (rule R103), and a byte of no row is an unknown opcode (rule R89).
-/

namespace Sys2Proof

/-- Under a distinct assignment the opcode byte of a row decodes to that row's operands. -/
theorem decodeWith_byte_cons {t : OpcodeBytes} (ht : t.Distinct) (op : Opcode) (rest : List Byte) :
    decodeWith t (t.byte op :: rest) = op.takeOperands rest := by
  rw [decodeWith, OpcodeBytes.lookup_byte ht]

theorem decode_byte_cons (op : Opcode) (rest : List Byte) :
    decode (defaultOpcodes.byte op :: rest) = op.takeOperands rest :=
  decodeWith_byte_cons defaultOpcodes_distinct op rest

/-- Settles O13: each of the five sequences starts with the opcode byte of the row named, and goes on with exactly the
operand bytes that row has. -/
theorem sourceScenarioDecodes : Obligations.SourceScenarioDecodes := by
  unfold Obligations.SourceScenarioDecodes
  exact ⟨decode_byte_cons .ldi [0, 8], decode_byte_cons .ldi [1, 9], decode_byte_cons .add [0, 1],
    decode_byte_cons .prn [0], decode_byte_cons .hlt []⟩

end Sys2Proof

namespace Sys2Proof.Machine

/-- A step at a byte that matches no row records `UnknownOpcode` with that byte. -/
theorem step_of_lookup_none {s : State} (hs : s.Stepping) (hpc : s.pc.toNat ≤ 255)
    (hl : defaultOpcodes.lookup (s.mem.read s.pc.toNat) = none) :
    step s = .next (s.recordFault .unknownOpcode (zext9 (s.mem.read s.pc.toNat))) :=
  step_of_fetch_error hs (State.fetch_unknown hpc hl)

/-- Settles O15: the assignment is distinct, and a byte that is none of the twelve matches no row of the table. -/
theorem otherBytesAreUnknownOpcodes : Obligations.OtherBytesAreUnknownOpcodes := by
  unfold Obligations.OtherBytesAreUnknownOpcodes
  refine ⟨⟨rfl, defaultOpcodes_distinct⟩, ?_⟩
  intro s hs hpc hbyte
  exact step_of_lookup_none hs hpc (OpcodeBytes.lookup_eq_none.mpr hbyte)

end Sys2Proof.Machine
end

section
/-!
What the execution cycle checks before an instruction has any effect (spec/40_execution_cycle.md): the pc of the opcode
fetch (rule R102) and the register operand bytes (rule R106).
-/

namespace Sys2Proof.Machine

/-! ### Register operands -/

/-- The byte that the check of one register operand finds above 7 is the one the fault names. -/
theorem withReg_of_find? {a n : Byte} (h : [a].find? (fun n => 7 < n.toNat) = some n) (s : State)
    (k : Reg → Result) : withReg a s k = .next (s.recordFault .outOfBounds (zext9 n)) := by
  obtain ⟨hn, hmem⟩ : 7 < n.toNat ∧ n ∈ [a] := ⟨by simpa using List.find?_some h, List.mem_of_find?_eq_some h⟩
  obtain rfl := List.mem_singleton.mp hmem
  rw [withReg_invalid hn, raise_eq]

/-- Of two register operands the first one above 7 is the one the fault names: `b` is looked at only when `a` names a
register. -/
theorem withRegs_of_find? {a b n : Byte} (h : [a, b].find? (fun n => 7 < n.toNat) = some n) (s : State)
    (k : Reg → Reg → Result) : withRegs a b s k = .next (s.recordFault .outOfBounds (zext9 n)) := by
  by_cases ha : 7 < a.toNat
  · rw [List.find?_cons_of_pos (by simpa using ha)] at h
    obtain rfl := Option.some.inj h
    rw [withRegs, withReg_invalid ha, raise_eq]
  · rw [List.find?_cons_of_neg (by simpa using ha)] at h
    obtain ⟨ra, -, e⟩ := (withReg_cases a s fun ra => withReg b s fun rb => k ra rb).resolve_right (ha ·.1)
    rw [withRegs, e, withReg_of_find? h]

/-- Every instruction validates its register operands, in their order, before anything else it does. -/
theorem exec_of_find?_registerOperands {i : Instr} {n : Byte}
    (h : i.registerOperands.find? (fun n => 7 < n.toNat) = some n) (s : State) :
    exec i s = .next (s.recordFault .outOfBounds (zext9 n)) := by
  cases i with
  | ldi | prn | push | pop | call => exact withReg_of_find? h s _
  | mul | add | sub | div => exact withRegs_of_find? h s _
  | ret | nop | hlt => cases h

/-- Settles O21: the check of the register operands is the first thing an instruction does, and it stops at the first
byte above 7. -/
theorem registerOperandsAreValidated : Obligations.RegisterOperandsAreValidated := by
  unfold Obligations.RegisterOperandsAreValidated
  refine ⟨fun _ s _ h => exec_of_find?_registerOperands h s, ?_⟩
  intro a b
  exact ⟨rfl, rfl, rfl, rfl, rfl, rfl, rfl, rfl, rfl⟩

/-! ### Opcode fetch -/

/-- A step at a pc outside memory records `OutOfBounds` with the pc. -/
theorem step_of_pc_outside {s : State} (hs : s.Stepping) (hpc : 255 < s.pc.toNat) :
    step s = .next (s.recordFault .outOfBounds s.pc) :=
  step_of_fetch_error hs (State.fetch_outside hpc)

/-- Settles O20: inside memory the fetched bytes start with the cell at the pc; outside it the fetch faults. -/
theorem opcodeFetch : Obligations.OpcodeFetch := by
  unfold Obligations.OpcodeFetch
  refine ⟨?_, fun _ => step_of_pc_outside⟩
  intro s hpc
  rw [State.fetchBytes_inside hpc, List.head?_cons]

end Sys2Proof.Machine
end

section
/-!
LDI and PRN (spec/41_ldi_prn.md), with the two faults every instruction with operands shares: the first register operand
byte (spec/40_execution_cycle.md rule R106) and an operand byte that lies outside memory (rule R105).
-/

namespace Sys2Proof.Machine

/-! ### Faults of the operands -/

/-- Whatever the other operands are, a first register operand above 7 is the one the fault names. -/
theorem exec_of_first_registerOperand_invalid {i : Instr} {a : Byte} {others : List Byte}
    (hops : i.registerOperands = a :: others) (ha : 7 < a.toNat) (s : State) :
    exec i s = .next (s.recordFault .outOfBounds (zext9 a)) := by
  have hfind : i.registerOperands.find? (fun n => 7 < n.toNat) = some a := by
    rw [hops, List.find?_cons_of_pos (by simpa using ha)]
  exact exec_of_find?_registerOperands hfind s

/-- The opcode byte selects its row, and a row that ends above address 255 overruns memory at address 256. -/
theorem operandFetchFaults (op : Opcode) : OperandFetchFaults op := by
  intro s hs hpc hbyte hend
  have hrow : defaultOpcodes.lookup (s.mem.read s.pc.toNat) = some op := by
    rw [hbyte, OpcodeBytes.lookup_byte defaultOpcodes_distinct]
  exact step_of_fetch_error hs (State.fetch_overrun hpc hrow hend)

/-! ### LDI -/

/-- Settles O23: LDI completes by its own rule, and its faults are those of every instruction with operands. -/
theorem ldiLoadsTheImmediate : Obligations.LdiLoadsTheImmediate := by
  unfold Obligations.LdiLoadsTheImmediate
  refine ⟨?completes, ?invalid, operandFetchFaults .ldi, fun _ _ => rfl⟩
  case completes =>
    intro r imm s
    exact exec_of_completes (.ldi r imm s)
  case invalid =>
    intro a imm s ha
    exact exec_of_first_registerOperand_invalid rfl ha s

/-! ### PRN -/

/-- Settles O24: PRN completes by its own rule, and its faults are those of every instruction with operands. -/
theorem prnEmitsTheRegister : Obligations.PrnEmitsTheRegister := by
  unfold Obligations.PrnEmitsTheRegister
  refine ⟨?completes, ?invalid, operandFetchFaults .prn, fun _ => rfl⟩
  case completes =>
    intro r s
    exact exec_of_completes (.prn r s)
  case invalid =>
    intro a s ha
    exact exec_of_first_registerOperand_invalid rfl ha s

end Sys2Proof.Machine
end

section
/-!
MUL, ADD, SUB and DIV (spec/42_alu.md): the result of each as arithmetic on numbers (rules R131 to R134), the faults of
two register operands, and the frame (rule R139).
-/

namespace Sys2Proof

/-! ### The ALU's results as numbers -/

/-- MUL's result is the low byte of the product (R131, R135). -/
theorem byte_mul_eq_ofNat (v w : Byte) : v * w = BitVec.ofNat 8 (v.toNat * w.toNat % 256) :=
  BitVec.eq_of_toNat_eq (by simp)

/-- ADD's result is the low byte of the sum (R132, R135). -/
theorem byte_add_eq_ofNat (v w : Byte) : v + w = BitVec.ofNat 8 ((v.toNat + w.toNat) % 256) :=
  BitVec.eq_of_toNat_eq (by simp)

/-- SUB's result is the remainder in 0..255 of the difference, which may be negative (R133, R7). -/
theorem byte_sub_eq_ofNat (v w : Byte) :
    v - w = BitVec.ofNat 8 (((v.toNat : Int) - (w.toNat : Int)) % 256).toNat := by
  apply BitVec.eq_of_toNat_eq
  have hw : w.toNat < 2 ^ 8 := w.isLt
  rw [BitVec.toNat_sub, BitVec.toNat_ofNat]
  omega

/-- DIV's result is the quotient itself, which never leaves the range of a byte (R134, R136). -/
theorem byte_div_eq_ofNat (v w : Byte) : v / w = BitVec.ofNat 8 (v.toNat / w.toNat) := by
  apply BitVec.eq_of_toNat_eq
  have hquot : v.toNat / w.toNat < 2 ^ 8 := (Nat.div_le_self _ _).trans_lt v.isLt
  rw [BitVec.toNat_udiv, BitVec.toNat_ofNat, Nat.mod_eq_of_lt hquot]

/-! ### The byte of a register -/

theorem Reg.byte_toNat_le (r : Reg) : r.byte.toNat ≤ 7 := by
  have hr : r.val < 8 := r.isLt
  rw [Reg.byte, BitVec.toNat_ofNat]
  omega

end Sys2Proof

namespace Sys2Proof.Machine

/-! ### Faults -/

/-- Where the first register operand names a register, a second one above 7 is the one the fault names. -/
theorem exec_of_second_registerOperand_invalid {i : Instr} {ra : Reg} {b : Byte} {others : List Byte}
    (hops : i.registerOperands = ra.byte :: b :: others) (hb : 7 < b.toNat) (s : State) :
    exec i s = .next (s.recordFault .outOfBounds (zext9 b)) := by
  have hfind : i.registerOperands.find? (fun n => 7 < n.toNat) = some b := by
    rw [hops, List.find?_cons_of_neg (by simpa using ra.byte_toNat_le),
      List.find?_cons_of_pos (by simpa using hb)]
  exact exec_of_find?_registerOperands hfind s

theorem exec_div_of_divisor_eq_zero {rb : Reg} {s : State} (hzero : s.readReg rb = 0) (ra : Reg) :
    exec (.div ra.byte rb.byte) s = .next (s.recordFault .divisionByZero 0) := by
  rw [exec, execDiv, execAlu, withRegs_byte, alu, if_pos hzero, raise_eq]

/-! ### The four instructions -/

/-- Settles O25: MUL completes by its own rule with the low byte of the product, and its faults are those of every
instruction with two register operands. -/
theorem mulWritesTheProduct : Obligations.MulWritesTheProduct := by
  unfold Obligations.MulWritesTheProduct
  refine ⟨?completes, ?first, ?second, operandFetchFaults .mul, fun _ _ _ => rfl⟩
  case completes =>
    intro ra rb s
    rw [← byte_mul_eq_ofNat]
    exact exec_of_completes (.mul ra rb s)
  case first => exact fun _ _ s ha => exec_of_first_registerOperand_invalid rfl ha s
  case second => exact fun _ _ s hb => exec_of_second_registerOperand_invalid rfl hb s

/-- Settles O26: ADD completes by its own rule with the low byte of the sum, and its faults are those of every
instruction with two register operands. -/
theorem addWritesTheSum : Obligations.AddWritesTheSum := by
  unfold Obligations.AddWritesTheSum
  refine ⟨?completes, ?first, ?second, operandFetchFaults .add, fun _ _ => rfl⟩
  case completes =>
    intro ra rb s
    rw [← byte_add_eq_ofNat]
    exact exec_of_completes (.add ra rb s)
  case first => exact fun _ _ s ha => exec_of_first_registerOperand_invalid rfl ha s
  case second => exact fun _ _ s hb => exec_of_second_registerOperand_invalid rfl hb s

/-- Settles O27: SUB completes by its own rule with the remainder of the difference, and its faults are those of every
instruction with two register operands. -/
theorem subWritesTheDifference : Obligations.SubWritesTheDifference := by
  unfold Obligations.SubWritesTheDifference
  refine ⟨?completes, ?first, ?second, operandFetchFaults .sub, fun _ _ _ => rfl⟩
  case completes =>
    intro ra rb s
    rw [← byte_sub_eq_ofNat]
    exact exec_of_completes (.sub ra rb s)
  case first => exact fun _ _ s ha => exec_of_first_registerOperand_invalid rfl ha s
  case second => exact fun _ _ s hb => exec_of_second_registerOperand_invalid rfl hb s

/-- Settles O28: DIV completes by its own rule where the divisor is not 0, the ALU has no result where it is, and the
other faults are those of every instruction with two register operands. -/
theorem divWritesTheQuotientOrFaults : Obligations.DivWritesTheQuotientOrFaults := by
  unfold Obligations.DivWritesTheQuotientOrFaults
  refine ⟨?completes, ?zero, ?first, ?second, operandFetchFaults .div, fun _ _ _ => rfl⟩
  case completes =>
    intro ra rb s hdivisor
    rw [← byte_div_eq_ofNat]
    exact exec_of_completes (.div ra rb s hdivisor)
  case zero => exact fun ra _ _ hzero => exec_div_of_divisor_eq_zero hzero ra
  case first => exact fun _ _ s ha => exec_of_first_registerOperand_invalid rfl ha s
  case second => exact fun _ _ s hb => exec_of_second_registerOperand_invalid rfl hb s

/-! ### Their frame -/

/-- Whatever it computes, an ALU instruction that completes writes the register its first operand names, and the pc. -/
theorem Completes.eq_writeReg_advance_of_alu {a b : Byte} {i : Instr} {s t : State}
    (hi : i = .mul a b ∨ i = .add a b ∨ i = .sub a b ∨ i = .div a b) (h : Completes i s t) :
    ∃ (ra : Reg) (v : Byte), a = ra.byte ∧ t = (s.writeReg ra v).advance 3 := by
  obtain rfl | rfl | rfl | rfl := hi <;> cases h <;> exact ⟨_, _, rfl, rfl⟩

/-- Settles O37: an ALU instruction that completes has written one register and the pc, and one that does not has only
recorded a fault. -/
theorem aluWritesOneRegisterAndPc : Obligations.AluWritesOneRegisterAndPc := by
  unfold Obligations.AluWritesOneRegisterAndPc
  intro a b i s t hi h
  obtain hcompletes | ⟨code, info, rfl, hcode, -⟩ := exec_cases h
  · obtain ⟨ra, v, rfl, rfl⟩ := hcompletes.eq_writeReg_advance_of_alu hi
    refine ⟨?_, fun _ => rfl, rfl, rfl, .inl ⟨rfl, rfl, rfl⟩⟩
    intro r hr
    exact s.readReg_writeReg_other v (ne_of_apply_ne Reg.byte hr)
  · exact ⟨fun _ _ => rfl, fun _ => rfl, rfl, rfl, .inr ⟨code, info, hcode, rfl⟩⟩

end Sys2Proof.Machine
end

section
/-!
CALL and RET (spec/44_call_ret.md): the single-byte RET (rule R161), and the RET that undoes a CALL as long as the stack
pointer and the cell with the return address are as the CALL left them (rule R162).
-/

namespace Sys2Proof.Machine

/-! ### Instructions without operands -/

/-- An instruction whose row takes no operand byte is fetched wherever its opcode byte stands. -/
theorem runsAtEveryAddress_of_no_operands {i : Instr} (hi : ∀ bytes, i.opcode.takeOperands bytes = .ok (i, bytes)) :
    RunsAtEveryAddress i := by
  intro s hs hpc hbyte
  have hfetch : s.fetch = .ok i := by
    rw [State.fetch, State.fetchBytes_inside hpc, hbyte, decode_byte_cons, hi]
  exact step_of_fetch_ok hs hfetch

/-! ### RET -/

/-- Settles O33: RET completes by its own rule unless the increment of SP would give 256, and has no operand to fetch. -/
theorem retPopsThePc : Obligations.RetPopsThePc := by
  unfold Obligations.RetPopsThePc
  refine ⟨?completes, ?underflow, runsAtEveryAddress_of_no_operands fun _ => rfl, fun _ => rfl⟩
  case completes =>
    intro s hsp
    exact exec_of_completes (.ret s hsp)
  case underflow =>
    intro s hsp
    exact if_pos hsp

/-! ### What a CALL leaves for its RET -/

/-- An instruction that leaves no fault recorded has completed. -/
theorem completes_of_exec {i : Instr} {s t : State} (h : exec i s = .next t) (hcode : t.faultCode = .none) :
    Completes i s t := by
  obtain hcompletes | ⟨code, info, rfl, hne, -⟩ := exec_cases h
  · exact hcompletes
  · exact absurd hcode hne

/-- SP is register 7 (rule R21). -/
theorem State.sp_eq (s : State) : s.sp = s.x[7] := rfl

theorem State.setSp_x_spReg (s : State) (v : Byte) : (s.setSp v).x[7] = v :=
  s.readReg_writeReg_same Config.spReg v

/-- A CALL takes one byte of stack. -/
theorem Completes.call_sp {a : Byte} {s t : State} (h : Completes (.call a) s t) :
    s.x[7].toNat = t.x[7].toNat + 1 := by
  cases h with
  | call r s hsp hpc =>
    rw [State.setPc_x, State.setSp_x_spReg, ← State.sp_eq]
    bv_omega

/-- The cell at the new SP holds the return address, which fits a byte. -/
theorem Completes.call_pushes_return_address {a : Byte} {s t : State} (h : Completes (.call a) s t)
    (hmem : s.mem.wf = true) : zext9 (t.mem.read t.x[7].toNat) = s.pc + 2 := by
  cases h with
  | call r s hsp hpc =>
    rw [State.setPc_x, State.setPc_mem, State.setSp_x_spReg, State.setSp_mem, State.writeMem_mem,
      Memory.read_write_same hmem]
    apply BitVec.eq_of_toNat_eq
    rw [zext9_toNat, BitVec.toNat_ofNat]
    bv_omega

/-- Every cell but the one at the new SP is kept. -/
theorem Completes.call_read_other {a : Byte} {s t : State} (h : Completes (.call a) s t) {addr : Nat}
    (haddr : addr ≠ t.x[7].toNat) : t.mem.read addr = s.mem.read addr := by
  cases h with
  | call r s hsp hpc =>
    rw [State.setPc_x, State.setSp_x_spReg] at haddr
    exact s.mem.read_write_other _ haddr.symm

/-! ### The pair -/

/-- A RET that finds SP and the return address cell as a CALL left them goes on after that CALL with its SP. -/
theorem Completes.exec_ret_after_call {a : Byte} {s t u : State} (h : Completes (.call a) s t)
    (hmem : s.mem.wf = true) (hsp : u.x[7] = t.x[7])
    (hcell : u.mem.read u.x[7].toNat = t.mem.read t.x[7].toNat) :
    exec .ret u = .next ((u.setPc (s.pc + 2)).setSp s.x[7]) := by
  have hone : s.x[7].toNat = u.x[7].toNat + 1 := hsp ▸ h.call_sp
  have hroom : u.x[7] ≠ 255 := by bv_omega
  have hnewSp : u.sp + (1 : Byte) = s.x[7] := by
    rw [State.sp_eq]
    bv_omega
  have hnewPc : zext9 (u.readMem u.sp) = s.pc + 2 :=
    (congrArg zext9 hcell).trans (h.call_pushes_return_address hmem)
  rw [exec_of_completes (.ret u hroom), hnewPc, hnewSp]

/-- Settles O52: the inner RET undoes the inner CALL, which kept the outer return address, and so leaves SP and that
cell as the outer CALL did. -/
theorem returnResumesAfterTheCall : Obligations.ReturnResumesAfterTheCall := by
  unfold Obligations.ReturnResumesAfterTheCall
  refine ⟨?single, ?nested⟩
  case single =>
    intro a s t u hmem _ hcall ht hsp hcell
    have houter := completes_of_exec hcall ht
    exact ⟨_, houter.exec_ret_after_call hmem hsp hcell, rfl, State.setSp_x_spReg _ _, houter.call_sp⟩
  case nested =>
    intro a b s t u v w hmem _ hcall ht humem _ husp hucell hcall' hv hwsp hwcell hkept
    have houter := completes_of_exec hcall ht
    have hinner := completes_of_exec hcall' hv
    have hbelow : t.x[7].toNat ≠ v.x[7].toNat := by
      have := hinner.call_sp
      rw [husp] at this
      omega
    have hcell : w.mem.read t.x[7].toNat = t.mem.read t.x[7].toNat := by
      rw [husp] at hucell
      rw [hkept, hinner.call_read_other hbelow, hucell]
    have hysp : ((w.setPc (u.pc + 2)).setSp u.x[7]).x[7] = t.x[7] := by rw [State.setSp_x_spReg, husp]
    refine ⟨_, _, hinner.exec_ret_after_call humem hwsp hwcell, rfl,
      houter.exec_ret_after_call hmem hysp ?_, rfl, State.setSp_x_spReg _ _⟩
    rw [hysp]
    exact hcell

end Sys2Proof.Machine
end

section
/-!
NOP (spec/45_nop_hlt.md, rule R170).
-/

namespace Sys2Proof.Machine

/-- Settles O34: NOP has no fault to raise and no operand to fetch, so it completes from every state and is a single byte
wherever it stands. -/
theorem nopOnlyAdvancesThePc : Obligations.NopOnlyAdvancesThePc := by
  unfold Obligations.NopOnlyAdvancesThePc
  refine ⟨?completes, runsAtEveryAddress_of_no_operands fun _ => rfl, fun _ => rfl⟩
  case completes =>
    intro s
    exact exec_of_completes (.nop s)

end Sys2Proof.Machine
end

section
/-!
Boot (spec/70_reset_and_hazards.md): the program the host loads starts at address 0, and so does the core (rule R211).
The fetch takes three cells, the decoder had the whole program: it looks at the bytes of the first instruction only.
-/

namespace Sys2Proof

/-! ### The decoder looks no further than the longest instruction -/

theorem takeOne_of_take_prefix {mk : Byte → Instr} {bytes other rest : List Byte} {i : Instr}
    (h : takeOne mk bytes = .ok (i, rest)) (hsame : bytes.take 2 <+: other) :
    ∃ rest', takeOne mk other = .ok (i, rest') := by
  obtain ⟨more, rfl⟩ := hsame
  match bytes with
  | [] => cases h
  | a :: tail => cases h; exact ⟨_, rfl⟩

theorem takeTwo_of_take_prefix {mk : Byte → Byte → Instr} {bytes other rest : List Byte} {i : Instr}
    (h : takeTwo mk bytes = .ok (i, rest)) (hsame : bytes.take 2 <+: other) :
    ∃ rest', takeTwo mk other = .ok (i, rest') := by
  obtain ⟨more, rfl⟩ := hsame
  match bytes with
  | [] => cases h
  | [_] => cases h
  | a :: b :: tail => cases h; exact ⟨_, rfl⟩

/-- No row has more than two operand bytes. -/
theorem Opcode.takeOperands_of_take_prefix {op : Opcode} {bytes other rest : List Byte} {i : Instr}
    (h : op.takeOperands bytes = .ok (i, rest)) (hsame : bytes.take 2 <+: other) :
    ∃ rest', op.takeOperands other = .ok (i, rest') := by
  cases op with
  | ldi | mul | add | sub | div => exact takeTwo_of_take_prefix h hsame
  | prn | push | pop | call => exact takeOne_of_take_prefix h hsame
  | ret | nop | hlt => cases h; exact ⟨_, rfl⟩

/-- Bytes that go on as others do for the longest instruction decode to the same instruction. -/
theorem decode_of_take_prefix {bytes other rest : List Byte} {i : Instr} (h : decode bytes = .ok (i, rest))
    (hsame : bytes.take maxInstrLength <+: other) : ∃ rest', decode other = .ok (i, rest') := by
  match bytes with
  | [] => cases h
  | ir :: tail =>
    obtain ⟨more, rfl⟩ := hsame
    rw [decode, decodeWith] at h
    rw [maxInstrLength, List.take_succ_cons, List.cons_append, decode, decodeWith]
    cases hrow : defaultOpcodes.lookup ir with
    | none => rw [hrow] at h; cases h
    | some op =>
      rw [hrow] at h
      exact Opcode.takeOperands_of_take_prefix h (List.prefix_append _ _)

end Sys2Proof

namespace Sys2Proof.Machine

/-- Reading on from where a sequence was stored gives its bytes, as many as are read. -/
theorem Memory.take_prefix_bytesFrom_writeBytes {m : Memory} (hm : m.wf = true) (a n : Nat) (vs : List Byte)
    (hfits : a + vs.length ≤ Config.memSize) : vs.take n <+: (m.writeBytes a vs).bytesFrom a n := by
  rw [List.prefix_iff_getElem?]
  intro k hk
  rw [List.length_take] at hk
  have hread : (m.writeBytes a vs).read (a + k) = vs[k] := by
    rw [Memory.read_writeBytes hm a vs hfits, if_pos (by omega), Nat.add_sub_cancel_left, List.getD_eq_getElem]
  rw [Memory.bytesFrom_eq _ a n k (by omega) (by omega), hread, List.getElem_take]

/-- A core that is stepping runs the instruction its fetched bytes decode to. -/
theorem step_of_decode_ok {s : State} {i : Instr} {rest : List Byte} (hs : s.Stepping)
    (h : decode s.fetchBytes = .ok (i, rest)) : step s = exec i s :=
  step_of_fetch_ok hs (by rw [State.fetch, h])

/-- Settles O3: reset leaves the core idle, so both host operations succeed; the fetch at address 0 reads the bytes of
the program, and they decode as the program does. -/
theorem firstInstructionIsAtAddressZero : Obligations.FirstInstructionIsAtAddressZero := by
  unfold Obligations.FirstInstructionIsAtAddressZero
  intro program i rest hlen hdecode
  have hidle : ¬ State.reset.Stepping := by decide
  refine ⟨_, _, loadProgram_eq_ok.mpr ⟨hidle, hlen, rfl⟩, run_eq_ok.mpr ⟨hidle, .inl ⟨rfl, rfl⟩⟩, rfl, ?_⟩
  have hcells := Memory.take_prefix_bytesFrom_writeBytes (m := State.reset.mem) rfl loadBase maxInstrLength program
    (by rw [loadBase, Config.memSize]; omega)
  obtain ⟨_, hfetch⟩ := decode_of_take_prefix hdecode hcells
  exact step_of_decode_ok ⟨rfl, rfl⟩ hfetch

end Sys2Proof.Machine
end

section
/-!
Decoding and encoding are inverse to each other (spec/30_encoding.md sections 1 to 3), under every assignment of the
opcode bytes; and so the cells that hold an encoding are run as that instruction (spec/40_execution_cycle.md section 1).
-/

namespace Sys2Proof

/-! ### Decode of encode -/

/-- The row of an instruction takes its own operands, and leaves what follows them. -/
theorem Instr.takeOperands_operands (i : Instr) (rest : List Byte) :
    i.opcode.takeOperands (i.operands ++ rest) = .ok (i, rest) := by
  cases i <;> rfl

theorem decodeWith_encodeWith {t : OpcodeBytes} (ht : t.Distinct) (i : Instr) (rest : List Byte) :
    decodeWith t (encodeWith t i ++ rest) = .ok (i, rest) := by
  rw [encodeWith, List.cons_append, decodeWith_byte_cons ht, Instr.takeOperands_operands]

/-- Settles O11: under a distinct assignment the opcode byte selects the instruction's own row, and that row takes the
operands back. -/
theorem decodeOfEncodeIsTheInstruction : Obligations.DecodeOfEncodeIsTheInstruction := by
  unfold Obligations.DecodeOfEncodeIsTheInstruction
  exact fun _ i rest ht => decodeWith_encodeWith ht i rest

theorem decode_encode (i : Instr) (rest : List Byte) : decode (encode i ++ rest) = .ok (i, rest) :=
  decodeWith_encodeWith defaultOpcodes_distinct i rest

/-! ### Encode of decode -/

theorem takeOne_eq_ok {mk : Byte → Instr} {bytes rest : List Byte} {i : Instr} :
    takeOne mk bytes = .ok (i, rest) ↔ ∃ a, i = mk a ∧ bytes = a :: rest := by
  cases bytes <;> simp [takeOne, eq_comm]

theorem takeTwo_eq_ok {mk : Byte → Byte → Instr} {bytes rest : List Byte} {i : Instr} :
    takeTwo mk bytes = .ok (i, rest) ↔ ∃ a b, i = mk a b ∧ bytes = a :: b :: rest := by
  match bytes with
  | [] | [_] | _ :: _ :: _ => simp [takeTwo, eq_comm]

/-- A row makes an instruction of its own opcode out of the operand bytes it takes. -/
theorem Opcode.takeOperands_eq_ok {op : Opcode} {bytes rest : List Byte} {i : Instr}
    (h : op.takeOperands bytes = .ok (i, rest)) : i.opcode = op ∧ bytes = i.operands ++ rest := by
  cases op with
  | ldi | mul | add | sub | div => obtain ⟨a, b, rfl, rfl⟩ := takeTwo_eq_ok.mp h; exact ⟨rfl, rfl⟩
  | prn | push | pop | call => obtain ⟨a, rfl, rfl⟩ := takeOne_eq_ok.mp h; exact ⟨rfl, rfl⟩
  | ret | nop | hlt => cases h; exact ⟨rfl, rfl⟩

/-- Settles O12: the row that was found has the byte looked up, and it took exactly the operands of what it made. -/
theorem decodedBytesAreTheEncoding : Obligations.DecodedBytesAreTheEncoding := by
  unfold Obligations.DecodedBytesAreTheEncoding
  intro t bytes i rest h
  cases bytes with
  | nil => cases h
  | cons ir tail =>
    rw [decodeWith] at h
    cases hrow : t.lookup ir with
    | none => rw [hrow] at h; cases h
    | some op =>
      rw [hrow] at h
      obtain ⟨rfl, rfl⟩ := Opcode.takeOperands_eq_ok h
      rw [encodeWith, OpcodeBytes.byte_of_lookup hrow, List.cons_append]

/-! ### The presumed opcode bytes -/

/-- Settles O14: each of the eight sequences starts with the opcode byte of the row named, and goes on with exactly the
operand bytes that row has. -/
theorem presumedOpcodesDecode : Obligations.PresumedOpcodesDecode := by
  unfold Obligations.PresumedOpcodesDecode
  exact ⟨decode_byte_cons .mul [3, 5], decode_byte_cons .sub [3, 5], decode_byte_cons .div [3, 5],
    decode_byte_cons .push [6], decode_byte_cons .pop [6], decode_byte_cons .call [6], decode_byte_cons .ret [],
    decode_byte_cons .nop []⟩

/-! ### Lengths -/

theorem Opcode.length_le_maxInstrLength (op : Opcode) : op.length ≤ maxInstrLength := by
  cases op <;> decide

/-- Rule R84. -/
theorem length_encode (i : Instr) : (encode i).length = i.opcode.length := by
  cases i <;> rfl

end Sys2Proof

namespace Sys2Proof.Machine

/-! ### The instruction at the pc -/

/-- Settles O16: the fetch is the decoder applied to the bytes from the pc up. -/
theorem stepRunsTheDecodedInstruction : Obligations.StepRunsTheDecodedInstruction := by
  unfold Obligations.StepRunsTheDecodedInstruction
  exact fun _ _ _ => step_of_decode_ok

/-- Cells that hold an encoding which ends inside memory are what the fetch reads. -/
theorem State.encode_prefix_fetchBytes {s : State} {i : Instr} (hend : s.pc.toNat + i.opcode.length ≤ 256)
    (hcells : ∀ k v, (encode i)[k]? = some v → s.mem.read (s.pc.toNat + k) = v) : encode i <+: s.fetchBytes := by
  rw [List.prefix_iff_getElem?]
  intro k hk
  have hcell := hcells k _ (List.getElem?_eq_getElem hk)
  have hmax := i.opcode.length_le_maxInstrLength
  rw [length_encode] at hk
  rw [State.fetchBytes, Memory.bytesFrom_eq _ _ _ k (by omega) (by rw [Config.memSize]; omega), hcell]

/-- Settles O17: the bytes fetched start with the encoding, and the decoder looks no further than the instruction. -/
theorem stepRunsTheInstructionInMemory : Obligations.StepRunsTheInstructionInMemory := by
  unfold Obligations.StepRunsTheInstructionInMemory
  intro s i hs hend hcells
  have hdecode : decode (encode i) = .ok (i, []) := by
    simpa using decode_encode i []
  obtain ⟨_, hfetch⟩ := decode_of_take_prefix hdecode
    ((List.take_prefix _ _).trans (State.encode_prefix_fetchBytes hend hcells))
  exact step_of_decode_ok hs hfetch

end Sys2Proof.Machine
end

section
/-!
Where an instruction leaves the pc (spec/40_execution_cycle.md section 2), and what every step keeps: the invariant
(rule R110), the truth of a recorded fault (spec/60_exceptions.md rule R188) and the place of a clean halt (rule R196).
Each follows from what an instruction that completes writes, since a fault writes the status registers alone.
-/

namespace Sys2Proof.Machine

/-! ### The pc -/

theorem Completes.pc_eq_add_length {i : Instr} {s t : State} (h : Completes i s t) (hhlt : i ≠ .hlt) (hret : i ≠ .ret)
    (hcall : ∀ a, i ≠ .call a) : t.pc = s.pc + BitVec.ofNat 9 i.opcode.length := by
  cases h with
  | hlt => exact absurd rfl hhlt
  | ret => exact absurd rfl hret
  | call => exact absurd rfl (hcall _)
  | _ => rfl

/-- CALL reads its target register after the update of the stack. -/
theorem Completes.call_pc {a : Byte} {s t : State} (h : Completes (.call a) s t) :
    ∃ r : Reg, a = r.byte ∧ t.pc = zext9 t.x[r] := by
  cases h with
  | call r => exact ⟨r, rfl, rfl⟩

theorem Completes.ret_pc {s t : State} (h : Completes .ret s t) : t.pc = zext9 (s.mem.read s.x[7].toNat) := by
  cases h with
  | ret => rfl

theorem Completes.hlt_eq {s t : State} (h : Completes .hlt s t) : t = s.halt := by
  cases h with
  | hlt => rfl

/-- The nine bits of the pc hold the sum: from inside memory the length of an instruction leads at most to 258. -/
theorem pc_add_length_toNat {pc : PcWord} (hpc : pc.toNat ≤ 255) (op : Opcode) :
    (pc + BitVec.ofNat 9 op.length).toNat = pc.toNat + op.length := by
  have hlen : op.length ≤ 3 := op.length_le_maxInstrLength
  rw [BitVec.toNat_add, BitVec.toNat_ofNat]
  omega

theorem zext9_toNat_le (v : Byte) : (zext9 v).toNat ≤ 255 := by
  have := v.isLt
  rw [zext9_toNat]
  omega

theorem Completes.pc_le {i : Instr} {s t : State} (h : Completes i s t) (hpc : s.pc.toNat ≤ 255) :
    t.pc.toNat ≤ 258 := by
  by_cases hhlt : i = .hlt
  · subst hhlt
    rw [h.hlt_eq, State.halt_pc]
    omega
  by_cases hret : i = .ret
  · subst hret
    rw [h.ret_pc]
    exact (zext9_toNat_le _).trans (by decide)
  by_cases hcall : ∃ a, i = .call a
  · obtain ⟨a, rfl⟩ := hcall
    obtain ⟨r, -, htarget⟩ := h.call_pc
    rw [htarget]
    exact (zext9_toNat_le _).trans (by decide)
  · have hlen : i.opcode.length ≤ 3 := i.opcode.length_le_maxInstrLength
    rw [h.pc_eq_add_length hhlt hret (not_exists.mp hcall), pc_add_length_toNat hpc]
    omega

/-- Settles O36: an instruction that completes records no fault and moves the pc by its own rule; one that faults keeps
the pc. -/
theorem pcAdvancesByTheLength : Obligations.PcAdvancesByTheLength := by
  unfold Obligations.PcAdvancesByTheLength
  intro i s t hpc hcode h
  obtain hcompletes | ⟨code, info, rfl, hne, -⟩ := exec_cases h
  · refine ⟨fun hfault => absurd (hcompletes.faultCode_eq.trans hcode) hfault, ?hlt, ?call, ?ret, ?other⟩
    case hlt =>
      rintro - rfl
      rw [hcompletes.hlt_eq, State.halt_pc]
    case call =>
      rintro - a rfl
      exact hcompletes.call_pc
    case ret =>
      rintro - rfl
      exact hcompletes.ret_pc
    case other =>
      intro _ hhlt hret hcall
      rw [hcompletes.pc_eq_add_length hhlt hret hcall, pc_add_length_toNat hpc]
  · refine ⟨fun _ => rfl, ?_, ?_, ?_, ?_⟩ <;> exact fun hnone => absurd hnone hne

/-! ### Memory and the fault registers -/

/-- No instruction that completes writes `fault_info`. -/
theorem Completes.faultInfo_eq {i : Instr} {s t : State} (h : Completes i s t) : t.faultInfo = s.faultInfo := by
  cases h <;> rfl

/-- An instruction that completes keeps memory, or is PUSH or CALL and stores one byte at the address of a push, which
becomes SP. -/
theorem Completes.mem_eq_or_stores {i : Instr} {s t : State} (h : Completes i s t) :
    t.mem = s.mem ∨ ((∃ a, i = .push a) ∨ ∃ a, i = .call a) ∧ s.pushAddress = some t.x[7] ∧
      ∃ v, t.mem = s.mem.write t.x[7].toNat v := by
  cases h with
  | push r s hsp =>
    rw [State.advance_x, State.writeMem_x, State.setSp_x_spReg]
    exact .inr ⟨.inl ⟨_, rfl⟩, State.pushAddress_some.mpr ⟨hsp, rfl⟩, _, rfl⟩
  | call r s hsp hpc =>
    rw [State.setPc_x, State.setSp_x_spReg]
    exact .inr ⟨.inr ⟨_, rfl⟩, State.pushAddress_some.mpr ⟨hsp, rfl⟩, _, rfl⟩
  | _ => exact .inl rfl

/-- An address that fits a byte lies inside memory. -/
theorem Memory.write_byte_wf {m : Memory} (hm : m.wf = true) (addr v : Byte) : (m.write addr.toNat v).wf = true :=
  Memory.write_wf hm addr.isLt v

theorem Completes.mem_wf {i : Instr} {s t : State} (h : Completes i s t) (hmem : s.mem.wf = true) :
    t.mem.wf = true := by
  obtain heq | ⟨-, -, v, heq⟩ := h.mem_eq_or_stores
  · rw [heq, hmem]
  · rw [heq]
    exact Memory.write_byte_wf hmem _ v

/-! ### The invariant -/

theorem State.Inv.recordFault {s : State} (hs : s.Inv) {code : FaultCode} {info : PcWord}
    (hinfo : code.infoInRange info) : (s.recordFault code info).Inv where
  pcBound := hs.pcBound
  runningNoFault := nofun
  infoRange := hinfo
  memCanonical := hs.memCanonical

theorem Completes.keeps_inv {i : Instr} {s t : State} (h : Completes i s t) (hs : s.Inv) (hpc : s.pc.toNat ≤ 255)
    (hrun : s.runState = .running) : t.Inv where
  pcBound := h.pc_le hpc
  runningNoFault := fun _ => h.faultCode_eq.trans (hs.runningNoFault hrun)
  infoRange := by
    rw [h.faultCode_eq, h.faultInfo_eq]
    exact hs.infoRange
  memCanonical := h.mem_wf hs.memCanonical

/-- Settles O41: a step does nothing, completes an instruction at a pc inside memory, or records a fault whose detail is
in range; each keeps the invariant. -/
theorem stepKeepsTheInvariant : Obligations.StepKeepsTheInvariant := by
  unfold Obligations.StepKeepsTheInvariant
  intro s t hs h
  obtain ⟨-, rfl⟩ | ⟨⟨-, hrun⟩, hpc, i, hexec, -⟩ | ⟨-, code, info, rfl, -, hinfo⟩ := step_cases hs.pcBound h
  · exact hs
  · obtain hcompletes | ⟨code, info, rfl, -, -, hinfo⟩ := exec_cases hexec
    · exact hcompletes.keeps_inv hs hpc hrun
    · exact hs.recordFault (hinfo hpc)
  · exact hs.recordFault hinfo

/-! ### Faults are precise -/

/-- The three ways a step can go, from every pc. -/
theorem step_outcome (s : State) :
    (¬ s.Stepping ∧ step s = .next s) ∨ (∃ i, s.Stepping ∧ step s = exec i s) ∨
      ∃ code info, s.Stepping ∧ step s = .next (s.recordFault code info) := by
  by_cases hs : s.Stepping
  · cases hfetch : s.fetch with
    | ok i => exact .inr (.inl ⟨i, hs, step_of_fetch_ok hs hfetch⟩)
    | error fault => exact .inr (.inr ⟨fault.1, fault.2, hs, step_of_fetch_error hs hfetch⟩)
  · exact .inl ⟨hs, step_of_not_stepping hs⟩

theorem step_fault_eq_recordFault {s t : State} (hcode : s.faultCode = .none) (h : step s = .next t)
    (hfault : t.faultCode ≠ .none) : t = s.recordFault t.faultCode t.faultInfo := by
  obtain ⟨-, e⟩ | ⟨i, -, e⟩ | ⟨code, info, -, e⟩ := step_outcome s
  · obtain rfl := Host.Outcome.next.inj (e.symm.trans h)
    exact absurd hcode hfault
  · obtain hcompletes | ⟨code, info, rfl, -⟩ := exec_cases (e.symm.trans h)
    · exact absurd (hcompletes.faultCode_eq.trans hcode) hfault
    · rfl
  · obtain rfl := Host.Outcome.next.inj (e.symm.trans h)
    rfl

/-- Settles O44: an instruction that completes leaves `fault_code` as it was, so a step that records a fault did nothing
but record it. -/
theorem faultingStepWritesOnlyTheStatus : Obligations.FaultingStepWritesOnlyTheStatus := by
  unfold Obligations.FaultingStepWritesOnlyTheStatus
  exact fun _ _ => step_fault_eq_recordFault

/-- With the record of a fault taken away, a running state is back as it was before the fault. -/
theorem State.erase_recordFault {s : State} (hrun : s.runState = .running) (hcode : s.faultCode = .none)
    (hinfo : s.faultInfo = 0) (code : FaultCode) (info : PcWord) :
    { s.recordFault code info with runState := .running, faultCode := .none, faultInfo := 0 } = s := by
  rw [State.recordFault, ← hrun, ← hcode, ← hinfo]

theorem State.Inv.faultInfo_eq_zero {s : State} (hs : s.Inv) (hcode : s.faultCode = .none) : s.faultInfo = 0 := by
  have hinfo := hs.infoRange
  rwa [hcode] at hinfo

/-- Settles O42: the invariant says that a stepping core has no fault recorded, so taking away the one a step records
gives back the state before the step, which steps to the same fault. -/
theorem stepKeepsFaultTruthful : Obligations.StepKeepsFaultTruthful := by
  unfold Obligations.StepKeepsFaultTruthful
  intro s t hs htruthful h
  by_cases hstepping : s.Stepping
  · intro hfault
    have hcode := hs.runningNoFault hstepping.2
    have ht := step_fault_eq_recordFault hcode h hfault
    have hback : { t with runState := .running, faultCode := .none, faultInfo := 0 } = s := by
      rw [ht, State.erase_recordFault hstepping.2 hcode (hs.faultInfo_eq_zero hcode)]
    rw [hback, h]
  · rw [step_of_not_stepping hstepping] at h
    cases h
    exact htruthful

/-! ### Where a clean halt is -/

/-- Settles O43: a step that halts the core without a fault has completed HLT, whose opcode byte is what was looked up
at the pc, and HLT moves nothing. -/
theorem stepKeepsCleanHaltAtHlt : Obligations.StepKeepsCleanHaltAtHlt := by
  unfold Obligations.StepKeepsCleanHaltAtHlt
  intro s t hs hclean h hhalted hcode
  obtain ⟨-, rfl⟩ | ⟨⟨-, hrun⟩, hpc, i, hexec, hrow, -⟩ | ⟨-, code, info, rfl, hne, -⟩ := step_cases hs.pcBound h
  · exact hclean hhalted hcode
  · have hcompletes := completes_of_exec hexec hcode
    obtain rfl : i = .hlt := by simpa [hrun] using hcompletes.runState_halted_iff.mp hhalted
    obtain rfl := hcompletes.hlt_eq
    exact ⟨Nat.lt_succ_of_le hpc, (OpcodeBytes.byte_of_lookup hrow).symm⟩
  · exact absurd hcode hne

/-! ### Every step answers -/

theorem exec_total (i : Instr) (s : State) : ∃ t, exec i s = .next t := by
  obtain ⟨t, e, -⟩ | ⟨code, info, e, -⟩ := exec_spec i s <;> exact ⟨_, e⟩

theorem step_total (s : State) : ∃ t, step s = .next t := by
  obtain ⟨-, e⟩ | ⟨i, -, e⟩ | ⟨code, info, -, e⟩ := step_outcome s
  · exact ⟨_, e⟩
  · rw [e]
    exact exec_total i s
  · exact ⟨_, e⟩

/-- Settles O22: an instruction completes or raises a fault, and a step runs one, raises a fault or is no step; each is
a next state. -/
theorem everyStepAnswersANextState : Obligations.EveryStepAnswersANextState := by
  unfold Obligations.EveryStepAnswersANextState
  exact ⟨step_total, exec_total⟩

end Sys2Proof.Machine
end

section
/-!
Reset and the host (spec/70_reset_and_hazards.md): the state after reset (rule R210), what each operation does while the
core is not stepping (rules R213 to R217), that it is answered `busy` otherwise (rule R225), and that none breaks the
invariant.
-/

namespace Sys2Proof.Machine

/-! ### Reset -/

/-- Settles O1: reset gives every field its value; of memory nothing is listed. -/
theorem resetValues : Obligations.ResetValues := by
  unfold Obligations.ResetValues
  exact ⟨by decide, rfl, rfl, fun _ => rfl, rfl, rfl, rfl, rfl, rfl⟩

theorem State.reset_inv : State.reset.Inv where
  pcBound := by decide
  runningNoFault := fun _ => rfl
  infoRange := rfl
  memCanonical := rfl

/-- Settles O2: reset records no fault, and its pc is 0. -/
theorem resetSatisfiesInvariant : Obligations.ResetSatisfiesInvariant := by
  unfold Obligations.ResetSatisfiesInvariant
  exact State.reset_inv

/-- Settles O57: a core that is not stepping takes the reset. -/
theorem resetInputResets : Obligations.ResetInputResets := by
  unfold Obligations.ResetInputResets
  exact fun _ => hostCall_reset_of_idle

/-! ### `loadProgram` and `run` -/

/-- Settles O4: the program is stored from address 0 up, and one that is longer than memory is refused. -/
theorem loadProgramWritesItsBytesOnly : Obligations.LoadProgramWritesItsBytesOnly := by
  unfold Obligations.LoadProgramWritesItsBytesOnly
  intro program s hidle
  refine ⟨?fits, ?tooLong⟩
  case fits =>
    intro hlen hmem
    refine ⟨_, loadProgram_eq_ok.mpr ⟨hidle, hlen, rfl⟩, rfl, fun addr => ?_⟩
    have hend : loadBase + program.length ≤ Config.memSize := by rw [loadBase, Config.memSize]; omega
    have hread := Memory.read_writeBytes hmem loadBase program hend addr
    rwa [loadBase, if_pos addr.zero_le, Nat.sub_zero] at hread
  case tooLong =>
    intro hlen
    rw [loadProgram, whenIdle_idle hidle]
    exact if_pos hlen

/-- Settles O7: on a RUNNING core `run` sets `started`, on a HALTED one it does nothing. -/
theorem runOnlyStartsTheCore : Obligations.RunOnlyStartsTheCore := by
  unfold Obligations.RunOnlyStartsTheCore
  exact fun _ hidle => ⟨fun hrun => run_eq_ok.mpr ⟨hidle, .inl ⟨hrun, rfl⟩⟩,
    fun hhalted => run_eq_ok.mpr ⟨hidle, .inr ⟨hhalted, rfl⟩⟩⟩

/-! ### The memory accessors -/

theorem readMemory_valid {address : Int} {s : State} (hidle : ¬ s.Stepping) (ha : 0 ≤ address ∧ address ≤ 255) :
    readMemory address s = .ok (s.mem.read address.toNat) := by
  rw [readMemory, whenIdle_idle hidle, byteOfInt_valid ha, ← toNat_ofInt_byte ha]
  rfl

theorem readMemory_invalid {address : Int} {s : State} (hidle : ¬ s.Stepping) (ha : ¬ (0 ≤ address ∧ address ≤ 255)) :
    readMemory address s = .error .outOfBounds := by
  rw [readMemory, whenIdle_idle hidle, byteOfInt_invalid ha]
  rfl

theorem writeMemory_valid {address value : Int} {s : State} (hidle : ¬ s.Stepping)
    (ha : 0 ≤ address ∧ address ≤ 255) (hv : 0 ≤ value ∧ value ≤ 255) :
    writeMemory address value s = .ok { s with mem := s.mem.write address.toNat (BitVec.ofInt 8 value) } := by
  refine writeMemory_eq_ok.mpr ⟨hidle, _, _, byteOfInt_valid ha, byteOfInt_valid hv, ?_⟩
  rw [State.writeMem, toNat_ofInt_byte ha]

theorem writeMemory_invalid {address value : Int} {s : State} (hidle : ¬ s.Stepping)
    (ha : ¬ (0 ≤ address ∧ address ≤ 255)) : writeMemory address value s = .error .outOfBounds := by
  rw [writeMemory, whenIdle_idle hidle, byteOfInt_invalid ha]
  rfl

theorem writeMemory_invalid_value {address value : Int} {s : State} (hidle : ¬ s.Stepping)
    (ha : 0 ≤ address ∧ address ≤ 255) (hv : ¬ (0 ≤ value ∧ value ≤ 255)) :
    writeMemory address value s = .error .valueOutOfRange := by
  rw [writeMemory, whenIdle_idle hidle, byteOfInt_valid ha, byteOfInt_invalid hv]
  rfl

/-- Settles O5: a valid access reads or writes the one cell, and the checks are made in the order address, value. -/
theorem hostMemoryAccess : Obligations.HostMemoryAccess := by
  unfold Obligations.HostMemoryAccess
  intro s address value hidle
  refine ⟨readMemory_valid hidle, ?write, fun ha => ⟨readMemory_invalid hidle ha, writeMemory_invalid hidle ha⟩,
    writeMemory_invalid_value hidle⟩
  case write =>
    intro ha hv hmem
    refine ⟨_, writeMemory_valid hidle ha hv, rfl, ?readBack, ?others⟩
    case readBack =>
      have hread := readMemory_valid
        (s := { s with mem := s.mem.write address.toNat (BitVec.ofInt 8 value) }) hidle ha
      rwa [Memory.read_write_same hmem] at hread
    case others =>
      intro other hother
      exact Memory.read_write_other _ _ (by omega)

/-! ### The register accessors -/

theorem readRegister_reg {s : State} (hidle : ¬ s.Stepping) (r : Reg) : readRegister r.val s = .ok (s.readReg r) := by
  rw [readRegister, whenIdle_idle hidle, indexOfInt_reg]
  rfl

theorem writeRegister_valid {s : State} (hidle : ¬ s.Stepping) (r : Reg) {value : Int} (hv : 0 ≤ value ∧ value ≤ 255) :
    writeRegister r.val value s = .ok (s.writeReg r (BitVec.ofInt 8 value)) :=
  writeRegister_eq_ok.mpr ⟨hidle, _, _, indexOfInt_reg r, byteOfInt_valid hv, rfl⟩

theorem writeRegister_invalid_value {s : State} (hidle : ¬ s.Stepping) (r : Reg) {value : Int}
    (hv : ¬ (0 ≤ value ∧ value ≤ 255)) : writeRegister r.val value s = .error .valueOutOfRange := by
  rw [writeRegister, whenIdle_idle hidle, indexOfInt_reg, byteOfInt_invalid hv]
  rfl

theorem readRegister_invalid {s : State} (hidle : ¬ s.Stepping) {index : Int} (hi : ¬ (0 ≤ index ∧ index ≤ 7)) :
    readRegister index s = .error .outOfBounds := by
  rw [readRegister, whenIdle_idle hidle, indexOfInt_invalid hi]
  rfl

theorem writeRegister_invalid {s : State} (hidle : ¬ s.Stepping) {index : Int} (hi : ¬ (0 ≤ index ∧ index ≤ 7))
    (value : Int) : writeRegister index value s = .error .outOfBounds := by
  rw [writeRegister, whenIdle_idle hidle, indexOfInt_invalid hi]
  rfl

/-- Settles O6: a valid access reads or writes the one register, and the checks are made in the order index, value. -/
theorem hostRegisterRoundTrip : Obligations.HostRegisterRoundTrip := by
  unfold Obligations.HostRegisterRoundTrip
  intro s value hidle
  refine ⟨readRegister_reg hidle, ?write, fun r => writeRegister_invalid_value hidle r,
    fun index hi => ⟨readRegister_invalid hidle hi, writeRegister_invalid hidle hi value⟩⟩
  case write =>
    intro r hv
    refine ⟨_, writeRegister_valid hidle r hv, ?_, rfl⟩
    rw [readRegister_reg (s := s.writeReg r _) hidle, State.readReg_writeReg_same]

/-! ### `busy` and the other errors -/

theorem orFail_ne_busy {α : Type} {e : HostError} (he : e ≠ .busy) (o : Option α) : orFail e o ≠ .error .busy := by
  cases o <;> simp [orFail, he]

theorem map_ne_busy {α β : Type} {k : Except HostError α} (hk : k ≠ .error .busy) (f : α → β) :
    k.map f ≠ .error .busy := by
  cases k with
  | error e => simpa [Except.map] using hk
  | ok v => nofun

theorem bind_ne_busy {α β : Type} {k : Except HostError α} (hk : k ≠ .error .busy) {f : α → Except HostError β}
    (hf : ∀ v, f v ≠ .error .busy) : k >>= f ≠ .error .busy := by
  cases k with
  | error e => simpa [bind, Except.bind] using hk
  | ok v => exact hf v

/-- An operation that is not itself answered `busy` is so exactly while the core is stepping. -/
theorem whenIdle_eq_busy {α : Type} {s : State} {k : Except HostError α} (hk : k ≠ .error .busy) :
    whenIdle s k = .error .busy ↔ s.Stepping := by
  by_cases hs : s.Stepping
  · exact iff_of_true (whenIdle_busy hs k) hs
  · exact iff_of_false (by rwa [whenIdle_idle hs]) hs

theorem HostReply.ofWrite_failed {s : State} {r : Except HostError State} {e : HostError} :
    (HostReply.ofWrite s r).1 = .failed e ↔ r = .error e := by
  cases r <;> simp [HostReply.ofWrite]

theorem HostReply.ofRead_failed {s : State} {r : Except HostError Byte} {e : HostError} :
    (HostReply.ofRead s r).1 = .failed e ↔ r = .error e := by
  cases r <;> simp [HostReply.ofRead]

theorem HostReply.ofWrite_busy {s : State} {k : Except HostError State} (hk : k ≠ .error .busy) :
    (HostReply.ofWrite s (whenIdle s k)).1 = .failed .busy ↔ s.Stepping :=
  HostReply.ofWrite_failed.trans (whenIdle_eq_busy hk)

theorem HostReply.ofRead_busy {s : State} {k : Except HostError Byte} (hk : k ≠ .error .busy) :
    (HostReply.ofRead s (whenIdle s k)).1 = .failed .busy ↔ s.Stepping :=
  HostReply.ofRead_failed.trans (whenIdle_eq_busy hk)

/-- Two checked arguments are never answered `busy`. -/
theorem orFail_bind_orFail_ne_busy {α β γ : Type} {e₁ e₂ : HostError} (h₁ : e₁ ≠ .busy) (h₂ : e₂ ≠ .busy)
    (o₁ : Option α) (o₂ : Option β) (f : α → β → γ) :
    (do let u ← orFail e₁ o₁; let v ← orFail e₂ o₂; pure (f u v)) ≠ .error .busy :=
  bind_ne_busy (orFail_ne_busy h₁ o₁) fun _ => bind_ne_busy (orFail_ne_busy h₂ o₂) fun _ => nofun

/-- Settles O8: every operation is behind the same check, and none of the errors of its own is `busy`. -/
theorem hostActsOnlyWhileNotStepping : Obligations.HostActsOnlyWhileNotStepping := by
  unfold Obligations.HostActsOnlyWhileNotStepping
  intro c s
  cases c with
  | reset => exact HostReply.ofWrite_busy nofun
  | loadProgram program => exact HostReply.ofWrite_busy (by split <;> nofun)
  | readMemory address | readRegister r =>
    refine HostReply.ofRead_busy ?_
    exact map_ne_busy (orFail_ne_busy (by decide) _) _
  | writeMemory address value | writeRegister r value =>
    refine HostReply.ofWrite_busy ?_
    exact orFail_bind_orFail_ne_busy (by decide) (by decide) _ _ _
  | run => exact HostReply.ofWrite_busy (by split <;> nofun)

/-- A write that is answered with an error leaves the state as it was. -/
theorem HostReply.ofWrite_state_of_failed {s : State} {r : Except HostError State} {e : HostError}
    (h : (HostReply.ofWrite s r).1 = .failed e) : (HostReply.ofWrite s r).2 = s := by
  rw [HostReply.ofWrite_failed.mp h, HostReply.ofWrite]

/-- Settles O9: a read changes nothing, and a write that fails leaves the state it was given. -/
theorem failedHostCallChangesNothing : Obligations.FailedHostCallChangesNothing := by
  unfold Obligations.FailedHostCallChangesNothing
  intro c s e h
  cases c with
  | reset | loadProgram | writeMemory | writeRegister | run => exact HostReply.ofWrite_state_of_failed h
  | readMemory | readRegister => exact HostReply.ofRead_state s _

/-! ### The invariant -/

theorem State.Inv.withMem {s : State} (hs : s.Inv) {m : Memory} (hm : m.wf = true) : { s with mem := m }.Inv where
  pcBound := hs.pcBound
  runningNoFault := hs.runningNoFault
  infoRange := hs.infoRange
  memCanonical := hm

theorem State.Inv.writeReg {s : State} (hs : s.Inv) (r : Reg) (v : Byte) : (s.writeReg r v).Inv where
  pcBound := hs.pcBound
  runningNoFault := hs.runningNoFault
  infoRange := hs.infoRange
  memCanonical := hs.memCanonical

theorem State.Inv.start {s : State} (hs : s.Inv) : { s with started := true }.Inv where
  pcBound := hs.pcBound
  runningNoFault := hs.runningNoFault
  infoRange := hs.infoRange
  memCanonical := hs.memCanonical

/-- A write that keeps the invariant where it succeeds keeps it, since a failure changes nothing. -/
theorem HostReply.ofWrite_inv {s : State} (hs : s.Inv) {r : Except HostError State} (h : ∀ {t}, r = .ok t → t.Inv) :
    (HostReply.ofWrite s r).2.Inv := by
  obtain ⟨t, hr, e⟩ | ⟨_, -, e⟩ := HostReply.ofWrite_cases s r
  · rw [e]; exact h hr
  · rw [e]; exact hs

/-- Settles O10: reset establishes the invariant, and every other operation writes one byte, a program that fits memory,
or `started`. -/
theorem hostCallKeepsInvariant : Obligations.HostCallKeepsInvariant := by
  unfold Obligations.HostCallKeepsInvariant
  intro c s hs
  cases c with
  | reset =>
    refine HostReply.ofWrite_inv hs fun h => ?_
    obtain ⟨-, e⟩ := whenIdle_eq_ok.mp h
    cases e
    exact State.reset_inv
  | loadProgram program =>
    refine HostReply.ofWrite_inv hs fun h => ?_
    obtain ⟨-, hlen, rfl⟩ := loadProgram_eq_ok.mp h
    exact hs.withMem (Memory.writeBytes_wf hs.memCanonical program (by rwa [loadBase, Nat.zero_add]))
  | writeMemory address value =>
    refine HostReply.ofWrite_inv hs fun h => ?_
    obtain ⟨-, addr, v, -, -, rfl⟩ := writeMemory_eq_ok.mp h
    exact hs.withMem (Memory.write_byte_wf hs.memCanonical addr v)
  | writeRegister r value =>
    refine HostReply.ofWrite_inv hs fun h => ?_
    obtain ⟨-, index, v, -, -, rfl⟩ := writeRegister_eq_ok.mp h
    exact hs.writeReg _ v
  | run =>
    refine HostReply.ofWrite_inv hs fun h => ?_
    obtain ⟨-, ⟨-, rfl⟩ | ⟨-, rfl⟩⟩ := run_eq_ok.mp h
    · exact hs.start
    · exact hs
  | readMemory | readRegister =>
    rw [hostCall, HostReply.ofRead_state]
    exact hs

/-! ### The status port -/

/-- Settles O50: the port shows the pc, the detail and the numbers of rules R31 and R181, of which none is above 5. -/
theorem statusPortEncoding : Obligations.StatusPortEncoding := by
  unfold Obligations.StatusPortEncoding
  refine ⟨fun s => ⟨rfl, rfl, ?zero, ?one⟩, rfl, rfl, rfl, rfl, rfl, rfl, fun _ => rfl, fun c => by cases c <;> decide⟩
  case zero => cases hrun : s.runState <;> simp [State.statusPort, hrun, RunState.bits]
  case one => cases hrun : s.runState <;> simp [State.statusPort, hrun, RunState.bits]

end Sys2Proof.Machine
end

section
/-!
The numeral of an output value (spec/41_ldi_prn.md rule R122).
-/

namespace Sys2Proof.Machine

theorem digitChar_toNat (d : Nat) : (digitChar d).toNat = 48 + d % 10 := by
  have hvalid : (48 + d % 10).isValidChar := .inl (by omega)
  rw [digitChar, Char.toNat_ofNat, if_pos hvalid]

theorem digitChar_range (d : Nat) : 48 ≤ (digitChar d).toNat ∧ (digitChar d).toNat ≤ 57 := by
  rw [digitChar_toNat]
  omega

/-- The only digit written `0` is 0. -/
theorem digitChar_eq_zero {d : Nat} (h : digitChar d = '0') : d % 10 = 0 := by
  have hcode : (digitChar d).toNat = 48 := congrArg Char.toNat h
  rw [digitChar_toNat] at hcode
  omega

/-- A numeral has one, two or three digits. -/
theorem decimal_cases (v : Byte) :
    (v.toNat < 10 ∧ decimal v = [digitChar v.toNat]) ∨
    (10 ≤ v.toNat ∧ v.toNat < 100 ∧ decimal v = [digitChar (v.toNat / 10), digitChar v.toNat]) ∨
    (100 ≤ v.toNat ∧ decimal v = [digitChar (v.toNat / 100), digitChar (v.toNat / 10), digitChar v.toNat]) := by
  simp only [decimal]
  split_ifs with h10 h100
  · exact .inl ⟨h10, rfl⟩
  · exact .inr (.inl ⟨not_lt.mp h10, h100, rfl⟩)
  · exact .inr (.inr ⟨not_lt.mp h100, rfl⟩)

theorem decimal_reads_back (v : Byte) :
    (decimal v).foldl (fun n c => 10 * n + (c.toNat - 48)) 0 = v.toNat := by
  have hv : v.toNat < 256 := v.isLt
  obtain ⟨h10, e⟩ | ⟨-, h100, e⟩ | ⟨-, e⟩ := decimal_cases v <;>
    simp only [e, List.foldl_cons, List.foldl_nil, digitChar_toNat] <;> omega

theorem decimal_digits (v : Byte) : ∀ c ∈ decimal v, 48 ≤ c.toNat ∧ c.toNat ≤ 57 := by
  obtain ⟨-, e⟩ | ⟨-, -, e⟩ | ⟨-, e⟩ := decimal_cases v <;> simp [e, digitChar_range]

theorem decimal_ne_nil (v : Byte) : decimal v ≠ [] := by
  obtain ⟨-, e⟩ | ⟨-, -, e⟩ | ⟨-, e⟩ := decimal_cases v <;> exact e ▸ List.cons_ne_nil _ _

theorem decimal_no_leading_zero {v : Byte} (h : (decimal v).head? = some '0') : decimal v = ['0'] := by
  have hv : v.toNat < 256 := v.isLt
  obtain ⟨-, e⟩ | ⟨hge, hlt, e⟩ | ⟨hge, e⟩ := decimal_cases v <;> rw [e] at h ⊢ <;>
    have hfirst := Option.some.inj h
  · rw [hfirst]
  · have := digitChar_eq_zero hfirst
    omega
  · have := digitChar_eq_zero hfirst
    omega

/-- Settles O56: a numeral has one, two or three digits; they are those of the value, and the first of more than one is
not 0. -/
theorem outputNumeralIsShortestDecimal : Obligations.OutputNumeralIsShortestDecimal := by
  unfold Obligations.OutputNumeralIsShortestDecimal
  exact fun v => ⟨decimal_reads_back v, decimal_digits v, decimal_ne_nil v, decimal_no_leading_zero⟩

end Sys2Proof.Machine
end

section
/-!
Runs (spec/40_execution_cycle.md rule R109, spec/60_exceptions.md rule R190): a HALTED core stays as it is, so a run has
one outcome.
-/

namespace Sys2Proof.Machine

/-- Settles O18: without the host's `run`, or after a halt, a step is no step. -/
theorem coreThatIsNotSteppingStaysAsItIs : Obligations.CoreThatIsNotSteppingStaysAsItIs := by
  unfold Obligations.CoreThatIsNotSteppingStaysAsItIs
  exact fun _ => step_of_not_stepping

theorem reaches_self_of_halted {s : State} (hs : s.runState = .halted) (k : Nat) : Reaches k s s := by
  induction k with
  | zero => exact Reaches.zero s
  | succ k ih => exact (reaches_succ_of_step (step_of_not_stepping (State.not_stepping_of_halted hs))).mpr ih

/-- Settles O19, by induction on the number of steps, each of which is no step. -/
theorem haltedIsAbsorbing : Obligations.HaltedIsAbsorbing := by
  unfold Obligations.HaltedIsAbsorbing
  exact fun k _ hs => reaches_self_of_halted hs k

theorem Reaches.unique {k : Nat} {s t u : State} (ht : Reaches k s t) (hu : Reaches k s u) : t = u :=
  Host.Outcome.next.inj (ht.symm.trans hu)

/-- A run can go on for any number of steps. -/
theorem exists_reaches (k : Nat) (s : State) : ∃ t, Reaches k s t := by
  induction k generalizing s with
  | zero => exact ⟨s, Reaches.zero s⟩
  | succ k ih =>
    obtain ⟨t, hstep⟩ := step_total s
    obtain ⟨u, hu⟩ := ih t
    exact ⟨u, (reaches_succ_of_step hstep).mpr hu⟩

/-- A state in which a run has halted is the one it is in from there on. -/
theorem Reaches.eq_of_halted {j k : Nat} {s t u : State} (ht : Reaches j s t) (hhalted : t.runState = .halted)
    (hjk : j ≤ k) (hu : Reaches k s u) : u = t := by
  have hlater := ht.trans step_total (reaches_self_of_halted hhalted (k - j))
  rw [Nat.add_sub_cancel' hjk] at hlater
  exact hu.unique hlater

/-- Two states in which a run has halted are the same. -/
theorem Reaches.halted_unique {j k : Nat} {s t u : State} (ht : Reaches j s t) (hthalted : t.runState = .halted)
    (hu : Reaches k s u) (huhalted : u.runState = .halted) : t = u := by
  obtain hjk | hkj := le_total j k
  · exact (ht.eq_of_halted hthalted hjk hu).symm
  · exact hu.eq_of_halted huhalted hkj ht

theorem not_neverHalts_of_halted {k : Nat} {s t : State} (ht : Reaches k s t) (hhalted : t.runState = .halted) :
    ¬ NeverHalts s := by
  intro hnever
  obtain ⟨u, hu, hrun⟩ := hnever k
  rw [hu.unique ht, hhalted] at hrun
  cases hrun

theorem neverHalts_of_not_halted {s : State} (h : ∀ k t, Reaches k s t → t.runState ≠ .halted) : NeverHalts s := by
  intro k
  obtain ⟨t, ht⟩ := exists_reaches k s
  refine ⟨t, ht, ?_⟩
  cases hrun : t.runState with
  | running => rfl
  | halted => exact absurd hrun (h k t ht)

/-- Settles O49: a run that halts does so in one state, which records a fault or does not; one that does not halt is
RUNNING after every number of steps, since every step answers. -/
theorem runHasExactlyOneOutcome : Obligations.RunHasExactlyOneOutcome := by
  unfold Obligations.RunHasExactlyOneOutcome
  intro s
  refine ⟨?some, ?cleanOrFault, ?cleanOrNever, ?faultOrNever⟩
  case some =>
    by_cases hhalts : ∃ k t, Reaches k s t ∧ t.runState = .halted
    · obtain ⟨k, t, ht, hhalted⟩ := hhalts
      by_cases hcode : t.faultCode = .none
      · exact .inl ⟨k, t, ht, hhalted, hcode⟩
      · exact .inr (.inl ⟨k, t, ht, hhalted, hcode⟩)
    · exact .inr (.inr (neverHalts_of_not_halted fun k t ht hhalted => hhalts ⟨k, t, ht, hhalted⟩))
  case cleanOrFault =>
    rintro ⟨⟨j, t, ht, hthalted, hclean⟩, ⟨k, u, hu, huhalted, hfault⟩⟩
    rw [ht.halted_unique hthalted hu huhalted] at hclean
    exact hfault hclean
  case cleanOrNever =>
    rintro ⟨⟨k, t, ht, hhalted, -⟩, hnever⟩
    exact not_neverHalts_of_halted ht hhalted hnever
  case faultOrNever =>
    rintro ⟨⟨k, t, ht, hhalted, -⟩, hnever⟩
    exact not_neverHalts_of_halted ht hhalted hnever

end Sys2Proof.Machine
end

section
/-!
When an instruction raises a fault (spec/60_exceptions.md): the condition of each fault, said once, beside the effect of
each instruction that completes. From the two follow the faults of PUSH, POP and CALL, and which parts of the state an
instruction looks at.
-/

namespace Sys2Proof.Machine

/-! ### Completing or faulting -/

/-- The ways an instruction raises a fault, one per check: its register operands (rule R106), the divisor (rule R184),
SP (rules R185, R186), the return address (rule R160). -/
inductive Faults : Instr → State → FaultCode → PcWord → Prop
  | operand {i : Instr} {n : Byte} (s : State) (h : i.registerOperands.find? (fun n => 7 < n.toNat) = some n) :
      Faults i s .outOfBounds (zext9 n)
  | div (a b : Reg) (s : State) (h : s.readReg b = 0) : Faults (.div a.byte b.byte) s .divisionByZero 0
  | push (r : Reg) (s : State) (h : s.sp = 0) : Faults (.push r.byte) s .stackOverflow 0
  | pop (r : Reg) (s : State) (h : (s.writeReg r (s.readMem s.sp)).sp = 255) : Faults (.pop r.byte) s .stackUnderflow 0
  | callOverflow (r : Reg) (s : State) (h : s.sp = 0) : Faults (.call r.byte) s .stackOverflow 0
  | callReturn (r : Reg) (s : State) (h : s.sp ≠ 0) (hp : 255 < s.pc.toNat + 2) :
      Faults (.call r.byte) s .outOfBounds (s.pc + 2)
  | ret (s : State) (h : s.sp = 255) : Faults .ret s .stackUnderflow 0

theorem exec_of_faults {i : Instr} {s : State} {code : FaultCode} {info : PcWord} (h : Faults i s code info) :
    exec i s = .next (s.recordFault code info) := by
  cases h with
  | operand s h => exact exec_of_find?_registerOperands h s
  | div a b s h => exact exec_div_of_divisor_eq_zero h a
  | push r s h => rw [exec, execPush, withReg_byte, State.pushAddress_none.mpr h, raise_eq]
  | pop r s h => rw [exec, execPop, withReg_byte]; exact if_pos h
  | callOverflow r s h => rw [exec, execCall, withReg_byte, State.pushAddress_none.mpr h, raise_eq]
  | callReturn r s h hp =>
    rw [exec, execCall, withReg_byte, State.pushAddress_some.mpr ⟨h, rfl⟩, State.returnAddress, if_pos hp]
    rfl
  | ret s h => exact if_pos h

/-- Where the check of the register operands finds none above 7, each names a register. -/
theorem exists_reg_of_find?_none {i : Instr} (h : i.registerOperands.find? (fun n => 7 < n.toNat) = none) {a : Byte}
    (ha : a ∈ i.registerOperands) : ∃ r : Reg, a = r.byte := by
  have hle : ¬ 7 < a.toNat := by simpa using List.find?_eq_none.mp h a ha
  cases hr : regIndex a with
  | none => exact absurd (regIndex_eq_none.mp hr) hle
  | some r => exact ⟨r, regIndex_eq_some hr⟩

theorem completes_or_faults (i : Instr) (s : State) :
    (∃ t, Completes i s t) ∨ ∃ code info, Faults i s code info := by
  cases hfind : i.registerOperands.find? (fun n => 7 < n.toNat) with
  | some n => exact .inr ⟨_, _, .operand s hfind⟩
  | none =>
    have hreg := @exists_reg_of_find?_none i hfind
    cases i with
    | ldi a imm => obtain ⟨r, rfl⟩ := hreg (List.mem_singleton_self a); exact .inl ⟨_, .ldi r imm s⟩
    | prn a => obtain ⟨r, rfl⟩ := hreg (List.mem_singleton_self a); exact .inl ⟨_, .prn r s⟩
    | mul a b | add a b | sub a b =>
      obtain ⟨ra, rfl⟩ := hreg (List.mem_cons_self (a := a))
      obtain ⟨rb, rfl⟩ := hreg (a := b) (by simp [Instr.registerOperands])
      exact .inl ⟨_, by constructor⟩
    | div a b =>
      obtain ⟨ra, rfl⟩ := hreg (List.mem_cons_self (a := a))
      obtain ⟨rb, rfl⟩ := hreg (a := b) (by simp [Instr.registerOperands])
      by_cases h : s.readReg rb = 0
      · exact .inr ⟨_, _, .div ra rb s h⟩
      · exact .inl ⟨_, .div ra rb s h⟩
    | push a =>
      obtain ⟨r, rfl⟩ := hreg (List.mem_singleton_self a)
      by_cases h : s.sp = 0
      · exact .inr ⟨_, _, .push r s h⟩
      · exact .inl ⟨_, .push r s h⟩
    | pop a =>
      obtain ⟨r, rfl⟩ := hreg (List.mem_singleton_self a)
      by_cases h : (s.writeReg r (s.readMem s.sp)).sp = 255
      · exact .inr ⟨_, _, .pop r s h⟩
      · exact .inl ⟨_, .pop r s h⟩
    | call a =>
      obtain ⟨r, rfl⟩ := hreg (List.mem_singleton_self a)
      by_cases h : s.sp = 0
      · exact .inr ⟨_, _, .callOverflow r s h⟩
      by_cases hp : s.pc.toNat + 2 ≤ 255
      · exact .inl ⟨_, .call r s h hp⟩
      · exact .inr ⟨_, _, .callReturn r s h (not_le.mp hp)⟩
    | ret =>
      by_cases h : s.sp = 255
      · exact .inr ⟨_, _, .ret s h⟩
      · exact .inl ⟨_, .ret s h⟩
    | nop => exact .inl ⟨_, .nop s⟩
    | hlt => exact .inl ⟨_, .hlt s⟩

/-- What an instruction answers is the effect of its own rule or the fault of one of its checks. -/
theorem completes_or_faults_of_exec {i : Instr} {s t : State} (h : exec i s = .next t) :
    Completes i s t ∨ ∃ code info, Faults i s code info ∧ t = s.recordFault code info := by
  obtain ⟨u, hu⟩ | ⟨code, info, hf⟩ := completes_or_faults i s
  · obtain rfl := Host.Outcome.next.inj (h.symm.trans (exec_of_completes hu))
    exact .inl hu
  · exact .inr ⟨code, info, hf, Host.Outcome.next.inj (h.symm.trans (exec_of_faults hf))⟩

/-! ### What an instruction reads -/

/-- The checks of every instruction but POP look at registers and the pc alone. -/
theorem Faults.withMem {i : Instr} {s : State} {code : FaultCode} {info : PcWord} (h : Faults i s code info)
    (hpop : ∀ a, i ≠ .pop a) (m : Memory) : Faults i { s with mem := m } code info := by
  cases h with
  | operand s h => exact .operand _ h
  | div a b s h => exact .div a b _ h
  | push r s h => exact .push r _ h
  | pop r s h => exact absurd rfl (hpop _)
  | callOverflow r s h => exact .callOverflow r _ h
  | callReturn r s h hp => exact .callReturn r _ h hp
  | ret s h => exact .ret _ h

/-- An instruction that completes and is not POP or RET does the same over every memory: it keeps it, or stores one
byte. -/
theorem Completes.withMem {i : Instr} {s t : State} (h : Completes i s t) (hret : i ≠ .ret) (hpop : ∀ a, i ≠ .pop a) :
    (∀ m : Memory, Completes i { s with mem := m } { t with mem := m }) ∨
    ∃ top v, s.pushAddress = some top ∧
      ∀ m : Memory, Completes i { s with mem := m } { t with mem := m.write top.toNat v } := by
  cases h with
  | pop => exact absurd rfl (hpop _)
  | ret => exact absurd rfl hret
  | push r s hsp =>
    exact .inr ⟨_, (s.setSp (s.sp - 1)).readReg r, State.pushAddress_some.mpr ⟨hsp, rfl⟩,
      fun m => .push r { s with mem := m } hsp⟩
  | call r s hsp hp =>
    exact .inr ⟨_, BitVec.ofNat 8 (s.pc.toNat + 2), State.pushAddress_some.mpr ⟨hsp, rfl⟩,
      fun m => .call r { s with mem := m } hsp hp⟩
  | div a b s hdivisor => exact .inl fun m => .div a b { s with mem := m } hdivisor
  | ldi | prn | mul | add | sub | nop | hlt => exact .inl fun m => by constructor

/-- Settles O47: neither the effect nor the checks of the other ten instructions look at memory; where the instruction
only raised a fault, it keeps every memory. -/
theorem onlyPopAndRetReadMemoryAsData : Obligations.OnlyPopAndRetReadMemoryAsData := by
  unfold Obligations.OnlyPopAndRetReadMemoryAsData
  intro i s t hret hpop h
  obtain hcompletes | ⟨code, info, hfault, rfl⟩ := completes_or_faults_of_exec h
  · obtain hkeeps | ⟨top, v, htop, hstores⟩ := hcompletes.withMem hret hpop
    · exact .inl fun m => exec_of_completes (hkeeps m)
    · exact .inr ⟨top, v, htop, fun m => exec_of_completes (hstores m)⟩
  · exact .inl fun m => exec_of_faults (hfault.withMem hpop m)

theorem Faults.withOut {i : Instr} {s : State} {code : FaultCode} {info : PcWord} (h : Faults i s code info)
    (out : List Byte) : Faults i { s with out := out } code info := by
  cases h with
  | operand s h => exact .operand _ h
  | div a b s h => exact .div a b _ h
  | push r s h => exact .push r _ h
  | pop r s h => exact .pop r _ h
  | callOverflow r s h => exact .callOverflow r _ h
  | callReturn r s h hp => exact .callReturn r _ h hp
  | ret s h => exact .ret _ h

/-- An instruction that completes does the same to all but the output, whatever the output was. -/
theorem Completes.withOut {i : Instr} {s t : State} (h : Completes i s t) (out : List Byte) :
    ∃ out', Completes i { s with out := out } { t with out := out' } := by
  cases h with
  | prn r s => exact ⟨_, .prn r { s with out := out }⟩
  | div a b s h => exact ⟨_, .div a b { s with out := out } h⟩
  | push r s h => exact ⟨_, .push r { s with out := out } h⟩
  | pop r s h => exact ⟨_, .pop r { s with out := out } h⟩
  | call r s h hp => exact ⟨_, .call r { s with out := out } h hp⟩
  | ret s h => exact ⟨_, .ret { s with out := out } h⟩
  | ldi | mul | add | sub | nop | hlt => exact ⟨out, by constructor⟩

/-- An instruction that completes keeps the output, or is PRN of a register and appends its value. -/
theorem Completes.out_eq_or_appends {i : Instr} {s t : State} (h : Completes i s t) :
    t.out = s.out ∨ ∃ r : Reg, i = .prn r.byte ∧ t.out = s.out ++ [s.x[r]] := by
  cases h with
  | prn r s => exact .inr ⟨r, rfl, rfl⟩
  | _ => exact .inl rfl

theorem exec_out_eq_or_appends {i : Instr} {s t : State} (h : exec i s = .next t) :
    t.out = s.out ∨ ∃ r : Reg, i = .prn r.byte ∧ t.out = s.out ++ [s.x[r]] := by
  obtain hcompletes | ⟨code, info, rfl, -⟩ := exec_cases h
  · exact hcompletes.out_eq_or_appends
  · exact .inl rfl

/-- The output port shows a value that was appended. -/
theorem outputPort_of_appends {s t : State} {v : Byte} (h : t.out = s.out ++ [v]) : outputPort s t = some v := by
  rw [outputPort, h, List.length_append, List.length_singleton, if_pos rfl, List.getLast?_concat]

/-- Settles O48: PRN appends, the others keep the output, and neither the effect nor the checks of any look at it. -/
theorem outputIsWrittenOnlyByPrn : Obligations.OutputIsWrittenOnlyByPrn := by
  unfold Obligations.OutputIsWrittenOnlyByPrn
  refine ⟨?writes, ?reads, rfl⟩
  case writes =>
    intro i s t h
    obtain hkept | ⟨r, hi, happends⟩ := exec_out_eq_or_appends h
    · exact .inl hkept
    · exact .inr ⟨r, hi, happends, outputPort_of_appends happends⟩
  case reads =>
    intro i s t out h
    obtain hcompletes | ⟨code, info, hfault, rfl⟩ := completes_or_faults_of_exec h
    · obtain ⟨out', hout⟩ := hcompletes.withOut out
      exact ⟨_, exec_of_completes hout, rfl⟩
    · exact ⟨_, exec_of_faults (hfault.withOut out), rfl⟩

end Sys2Proof.Machine
end

section
/-!
What an instruction leaves unchanged (spec/10_state.md sections 3 to 5), field by field, and the frames made of it.
-/

namespace Sys2Proof.Machine

/-! ### Field by field -/

theorem exec_started {i : Instr} {s t : State} (h : exec i s = .next t) : t.started = s.started := by
  obtain hcompletes | ⟨code, info, rfl, -⟩ := exec_cases h
  · cases hcompletes <;> rfl
  · rfl

theorem Completes.runState_eq {i : Instr} {s t : State} (h : Completes i s t) (hi : i ≠ .hlt) :
    t.runState = s.runState := by
  cases h with
  | hlt => exact absurd rfl hi
  | _ => rfl

/-- No instruction but HLT touches the status registers, unless to record a fault. -/
theorem exec_statusKeptOrFaultOnly {i : Instr} {s t : State} (h : exec i s = .next t) (hi : i ≠ .hlt) :
    StatusKeptOrFaultOnly s t := by
  obtain hcompletes | ⟨code, info, rfl, hne, -⟩ := exec_cases h
  · exact .inl ⟨hcompletes.runState_eq hi, hcompletes.faultCode_eq, hcompletes.faultInfo_eq⟩
  · exact .inr ⟨code, info, hne, rfl⟩

theorem exec_out {i : Instr} {s t : State} (h : exec i s = .next t) (hi : ∀ a, i ≠ .prn a) : t.out = s.out :=
  (exec_out_eq_or_appends h).resolve_right fun ⟨r, e, _⟩ => hi r.byte e

/-- An instruction keeps memory, or is PUSH or CALL and stores one byte at the address of a push, which becomes SP. -/
theorem exec_mem_eq_or_stores {i : Instr} {s t : State} (h : exec i s = .next t) :
    t.mem = s.mem ∨ ((∃ a, i = .push a) ∨ ∃ a, i = .call a) ∧ s.pushAddress = some t.x[7] ∧
      ∃ v, t.mem = s.mem.write t.x[7].toNat v := by
  obtain hcompletes | ⟨code, info, rfl, -⟩ := exec_cases h
  · exact hcompletes.mem_eq_or_stores
  · exact .inl rfl

theorem exec_mem {i : Instr} {s t : State} (h : exec i s = .next t) (hpush : ∀ a, i ≠ .push a)
    (hcall : ∀ a, i ≠ .call a) : t.mem = s.mem := by
  obtain hkept | ⟨⟨a, e⟩ | ⟨a, e⟩, -⟩ := exec_mem_eq_or_stores h
  · exact hkept
  · exact absurd e (hpush a)
  · exact absurd e (hcall a)

/-- Settles O46: an instruction that does not keep memory has stored one byte at the address that became SP. -/
theorem onlyPushAndCallWriteMemory : Obligations.OnlyPushAndCallWriteMemory := by
  unfold Obligations.OnlyPushAndCallWriteMemory
  intro i s t h hne
  obtain ⟨hi, -, hstores⟩ := (exec_mem_eq_or_stores h).resolve_left hne
  exact ⟨hi, hstores⟩

/-! ### Registers -/

theorem exec_ldi_readReg {a imm : Byte} {s t : State} (h : exec (.ldi a imm) s = .next t) {r : Reg}
    (hr : r.byte ≠ a) : t.readReg r = s.readReg r := by
  obtain hcompletes | ⟨code, info, rfl, -⟩ := exec_cases h
  · cases hcompletes with
    | ldi ra => exact s.readReg_writeReg_other imm (ne_of_apply_ne Reg.byte hr)
  · rfl

theorem exec_nop_or_prn_x {i : Instr} {s t : State} (hi : i = .nop ∨ ∃ a, i = .prn a) (h : exec i s = .next t) :
    t.x = s.x := by
  obtain hcompletes | ⟨code, info, rfl, -⟩ := exec_cases h
  · obtain rfl | ⟨a, rfl⟩ := hi <;> cases hcompletes <;> rfl
  · rfl

/-- Writing SP keeps the other registers. -/
theorem State.readReg_setSp_other (s : State) {r : Reg} (v : Byte) (hr : r ≠ 7) :
    (s.setSp v).readReg r = s.readReg r := s.readReg_writeReg_other v hr

theorem exec_ret_or_pop_readReg {i : Instr} {s t : State} (hi : i = .ret ∨ ∃ a, i = .pop a) (h : exec i s = .next t)
    {r : Reg} (hr : r ≠ 7) (hdest : i ≠ .pop r.byte) : t.readReg r = s.readReg r := by
  obtain hcompletes | ⟨code, info, rfl, -⟩ := exec_cases h
  · obtain rfl | ⟨a, rfl⟩ := hi <;> cases hcompletes
    case ret => exact State.readReg_setSp_other _ _ hr
    case pop q _ =>
      have hrq : r ≠ q := fun e => hdest (e ▸ rfl)
      exact (State.readReg_setSp_other _ _ hr).trans (s.readReg_writeReg_other _ hrq)
  · rfl

theorem exec_push_or_call_readReg {a : Byte} {i : Instr} {s t : State} (hi : i = .push a ∨ i = .call a)
    (h : exec i s = .next t) {r : Reg} (hr : r ≠ 7) : t.readReg r = s.readReg r := by
  obtain hcompletes | ⟨code, info, rfl, -⟩ := exec_cases h
  · obtain rfl | rfl := hi <;> cases hcompletes <;> exact State.readReg_setSp_other _ _ hr
  · rfl

/-! ### The frames -/

/-- Settles O38: LDI writes one register, PRN the output, and none of the three memory. -/
theorem loadPrintNopFrame : Obligations.LoadPrintNopFrame := by
  unfold Obligations.LoadPrintNopFrame
  refine ⟨?ldi, ?nopOrPrn⟩
  case ldi =>
    intro a imm s t h
    exact ⟨fun _ => exec_ldi_readReg h, fun _ => by rw [exec_mem h nofun nofun], exec_out h nofun, exec_started h,
      exec_statusKeptOrFaultOnly h nofun⟩
  case nopOrPrn =>
    intro i s t hi h
    have hmem : t.mem = s.mem := by obtain rfl | ⟨a, rfl⟩ := hi <;> exact exec_mem h nofun nofun
    have hstatus : StatusKeptOrFaultOnly s t := by
      obtain rfl | ⟨a, rfl⟩ := hi <;> exact exec_statusKeptOrFaultOnly h nofun
    exact ⟨exec_nop_or_prn_x hi h, fun _ => by rw [hmem], fun hnop => exec_out h (hnop ▸ nofun), exec_started h,
      hstatus⟩

/-- Settles O39: POP writes its destination and SP, RET writes SP, and neither memory or the output. -/
theorem stackLoadFrame : Obligations.StackLoadFrame := by
  unfold Obligations.StackLoadFrame
  intro i s t hi h
  have hmem : t.mem = s.mem := by obtain rfl | ⟨a, rfl⟩ := hi <;> exact exec_mem h nofun nofun
  have hout : t.out = s.out := by obtain rfl | ⟨a, rfl⟩ := hi <;> exact exec_out h nofun
  have hstatus : StatusKeptOrFaultOnly s t := by
    obtain rfl | ⟨a, rfl⟩ := hi <;> exact exec_statusKeptOrFaultOnly h nofun
  exact ⟨fun _ => exec_ret_or_pop_readReg hi h, fun _ => by rw [hmem], hout, exec_started h, hstatus⟩

/-- Settles O40: PUSH and CALL write SP, and in memory at most the cell at the address of a push. -/
theorem stackStoreFrame : Obligations.StackStoreFrame := by
  unfold Obligations.StackStoreFrame
  intro a i s t hi h
  have hout : t.out = s.out := by obtain rfl | rfl := hi <;> exact exec_out h nofun
  have hstatus : StatusKeptOrFaultOnly s t := by obtain rfl | rfl := hi <;> exact exec_statusKeptOrFaultOnly h nofun
  refine ⟨?others, ?noAddress, fun _ => exec_push_or_call_readReg hi h, hout, exec_started h, hstatus⟩
  case others =>
    intro top htop addr haddr
    obtain hkept | ⟨-, hnew, v, hstores⟩ := exec_mem_eq_or_stores h
    · rw [hkept]
    · obtain rfl := Option.some.inj (htop.symm.trans hnew)
      rw [hstores, Memory.read_write_other _ _ haddr.symm]
  case noAddress =>
    intro hnone addr
    obtain hkept | ⟨-, hnew, -⟩ := exec_mem_eq_or_stores h
    · rw [hkept]
    · cases hnone.symm.trans hnew

end Sys2Proof.Machine
end

section
/-!
PUSH, POP and CALL (spec/43_stack.md section 2, spec/44_call_ret.md): the state each completes with, also where the
operand is R7, which is SP itself, and the faults. Then what is left of the other instructions: the quotient of DIV
(spec/42_alu.md section 3), HLT (spec/45_nop_hlt.md), and LDI followed by PRN (spec/41_ldi_prn.md).
-/

namespace Sys2Proof

/-- Below a byte that is not 0 there is one. -/
theorem byte_sub_one_toNat {v : Byte} (hv : v ≠ 0) : (v - 1).toNat = v.toNat - 1 := by
  bv_omega

theorem byte_add_one_toNat {v : Byte} (hv : v ≠ 255) : (v + 1).toNat = v.toNat + 1 := by
  bv_omega

end Sys2Proof

namespace Sys2Proof.Machine

/-! ### Registers written twice -/

@[simp] theorem State.writeReg_writeReg (s : State) (r : Reg) (v w : Byte) :
    (s.writeReg r v).writeReg r w = s.writeReg r w := by
  simp [State.writeReg]

@[simp] theorem State.writeReg_readReg (s : State) (r : Reg) : s.writeReg r (s.readReg r) = s := by
  simp [State.writeReg, State.readReg]

/-! ### PUSH -/

/-- A PUSH that completes and stores `v` (rule R151). -/
def State.pushed (s : State) (v : Byte) : State := ((s.setSp (s.sp - 1)).writeMem (s.sp - 1) v).advance 2

/-- PUSH stores the register as it is after SP has moved. -/
theorem exec_push {s : State} (hsp : s.sp ≠ 0) (r : Reg) :
    exec (.push r.byte) s = .next (s.pushed ((s.setSp (s.sp - 1)).readReg r)) :=
  exec_of_completes (.push r s hsp)

theorem exec_push_of_ne {s : State} (hsp : s.sp ≠ 0) {r : Reg} (hr : r ≠ 7) :
    exec (.push r.byte) s = .next (s.pushed (s.readReg r)) := by
  rw [exec_push hsp, State.readReg_setSp_other s _ hr]

theorem exec_push_sp {s : State} (hsp : s.sp ≠ 0) : exec (.push 7) s = .next (s.pushed (s.sp - 1)) := by
  have h := exec_push hsp Config.spReg
  rwa [State.setSp, State.readReg_writeReg_same] at h

/-- The fields of the state a PUSH leaves. -/
theorem State.pushed_eq {s : State} (hsp : s.sp ≠ 0) (v : Byte) :
    s.pushed v = { s with x := s.x.set 7 (s.x[7] - 1), mem := s.mem.write (s.x[7].toNat - 1) v, pc := s.pc + 2 } := by
  rw [← byte_sub_one_toNat (v := s.x[7]) hsp]
  rfl

/-- Settles O30: where SP is not 0, PUSH stores the register, for R7 the decremented SP; SP 0 and a register byte above
7 are checked before. -/
theorem pushStoresBelowTheStackPointer : Obligations.PushStoresBelowTheStackPointer := by
  unfold Obligations.PushStoresBelowTheStackPointer
  refine ⟨?register, ?sp, ?overflow, ?invalid, operandFetchFaults .push⟩
  case register =>
    intro r s hr hsp
    rw [exec_push_of_ne hsp hr, State.pushed_eq hsp]
    rfl
  case sp =>
    intro s hsp
    rw [exec_push_sp hsp, State.pushed_eq hsp]
    rfl
  case overflow => exact fun r s hsp => exec_of_faults (.push r s hsp)
  case invalid => exact fun _ s ha => exec_of_first_registerOperand_invalid rfl ha s

/-! ### POP -/

/-- A POP to a register other than R7 that completes (rule R152). -/
def State.popped (s : State) (r : Reg) : State := ((s.writeReg r (s.readMem s.sp)).setSp (s.sp + 1)).advance 2

theorem State.writeReg_sp_other (s : State) {r : Reg} (v : Byte) (hr : r ≠ 7) : (s.writeReg r v).sp = s.sp :=
  s.readReg_writeReg_other v hr.symm

theorem exec_pop_of_ne {s : State} {r : Reg} (hr : r ≠ 7) (hsp : s.sp ≠ 255) :
    exec (.pop r.byte) s = .next (s.popped r) := by
  have hkept := s.writeReg_sp_other (s.readMem s.sp) hr
  rw [exec_of_completes (.pop r s (by rwa [hkept])), hkept, State.popped]

/-- Settles O31: POP writes the popped byte first, then increments SP, which for R7 is that byte; the increment that
would give 256 and a register byte above 7 are faults. -/
theorem popLoadsAtTheStackPointer : Obligations.PopLoadsAtTheStackPointer := by
  unfold Obligations.PopLoadsAtTheStackPointer
  have hself (s : State) : (s.writeReg 7 (s.readMem s.sp)).sp = s.readMem s.sp := s.readReg_writeReg_same 7 _
  refine ⟨?register, ?underflow, ?sp, ?spUnderflow, ?invalid, operandFetchFaults .pop⟩
  case register => exact fun _ _ hr hsp => exec_pop_of_ne hr hsp
  case underflow =>
    intro r s hr hsp
    exact exec_of_faults (.pop r s ((s.writeReg_sp_other _ hr).trans hsp))
  case sp =>
    intro s hcell
    have h := exec_of_completes (.pop 7 s ((hself s).trans_ne hcell))
    rw [hself s] at h
    refine h.trans ?_
    rw [State.setSp, Config.spReg, State.writeReg_writeReg]
    rfl
  case spUnderflow =>
    intro s hcell
    exact exec_of_faults (.pop 7 s ((hself s).trans hcell))
  case invalid => exact fun _ s ha => exec_of_first_registerOperand_invalid rfl ha s

/-! ### CALL -/

/-- A CALL that completes and goes on at `target` (rule R160). -/
def State.called (s : State) (target : Byte) : State :=
  ((s.writeMem (s.sp - 1) (BitVec.ofNat 8 (s.pc.toNat + 2))).setSp (s.sp - 1)).setPc (zext9 target)

/-- CALL reads its target after SP has moved. -/
theorem exec_call {s : State} (hsp : s.sp ≠ 0) (hpc : s.pc.toNat + 2 ≤ 255) (r : Reg) :
    exec (.call r.byte) s = .next (s.called ((s.setSp (s.sp - 1)).readReg r)) :=
  exec_of_completes (.call r s hsp hpc)

/-- The fields of the state a CALL leaves. -/
theorem State.called_eq {s : State} (hsp : s.sp ≠ 0) (target : Byte) :
    s.called target = { s with
      x := s.x.set 7 (s.x[7] - 1)
      mem := s.mem.write (s.x[7].toNat - 1) (BitVec.ofNat 8 (s.pc.toNat + 2))
      pc := target.setWidth 9 } := by
  rw [← byte_sub_one_toNat (v := s.x[7]) hsp]
  rfl

/-- Settles O32: where there is room for the return address and it fits a byte, CALL goes to the register, for R7 to the
decremented SP; SP is checked before the return address, and a register byte above 7 before both. -/
theorem callPushesTheReturnAddress : Obligations.CallPushesTheReturnAddress := by
  unfold Obligations.CallPushesTheReturnAddress
  refine ⟨?register, ?sp, ?overflow, ?returnAddress, ?invalid, operandFetchFaults .call⟩
  case register =>
    intro r s hr hsp hpc
    rw [exec_call hsp hpc, State.readReg_setSp_other s _ hr, State.called_eq hsp]
    rfl
  case sp =>
    intro s hsp hpc
    have h := exec_call hsp hpc Config.spReg
    rw [State.setSp, State.readReg_writeReg_same, State.called_eq hsp] at h
    exact h
  case overflow => exact fun r s hsp => exec_of_faults (.callOverflow r s hsp)
  case returnAddress => exact fun r s hsp hpc => exec_of_faults (.callReturn r s hsp hpc)
  case invalid => exact fun _ s ha => exec_of_first_registerOperand_invalid rfl ha s

/-! ### DIV, HLT, LDI then PRN -/

/-- Settles O29: DIV completes with the quotient of the two old values, which is the floor. -/
theorem divQuotientIsTheFloor : Obligations.DivQuotientIsTheFloor := by
  unfold Obligations.DivQuotientIsTheFloor
  intro ra rb s t hdivisor h
  obtain rfl := Host.Outcome.next.inj (h.symm.trans (exec_of_completes (.div ra rb s hdivisor)))
  have hquotient : ((s.writeReg ra (s.readReg ra / s.readReg rb)).advance 3).x[ra].toNat =
      s.x[ra].toNat / s.x[rb].toNat :=
    (congrArg BitVec.toNat (s.readReg_writeReg_same ra _)).trans BitVec.toNat_udiv
  have hpos : 0 < s.x[rb].toNat := Nat.pos_of_ne_zero fun e => hdivisor (BitVec.eq_of_toNat_eq e)
  rw [hquotient]
  exact ⟨Nat.div_mul_le_self _ _, (Nat.div_lt_iff_lt_mul hpos).mp (Nat.lt_succ_self _)⟩

/-- Settles O35: HLT completes from every state, and it has no operand to fetch. -/
theorem hltOnlyHalts : Obligations.HltOnlyHalts := by
  unfold Obligations.HltOnlyHalts
  exact ⟨fun s => exec_of_completes (.hlt s), runsAtEveryAddress_of_no_operands fun _ => rfl⟩

/-- Settles O54: both complete from every state, and PRN reads what LDI wrote. -/
theorem ldiThenPrnEmitsTheImmediate : Obligations.LdiThenPrnEmitsTheImmediate := by
  unfold Obligations.LdiThenPrnEmitsTheImmediate
  intro r imm s
  refine ⟨_, _, exec_of_completes (.ldi r imm s), exec_of_completes (.prn r _), ?_⟩
  have hwritten : ((s.writeReg r imm).advance 3).readReg r = imm := s.readReg_writeReg_same r imm
  rw [hwritten]
  rfl

end Sys2Proof.Machine
end

section
/-!
Laws of the stack over several instructions (spec/43_stack.md section 3), and the jump through the stack
(spec/44_call_ret.md).
-/

namespace Sys2Proof.Machine

/-! ### After a push, after a pop -/

theorem State.pushed_sp (s : State) (v : Byte) : (s.pushed v).sp = s.sp - 1 :=
  s.readReg_writeReg_same Config.spReg _

theorem State.pushed_readReg (s : State) (v : Byte) {r : Reg} (hr : r ≠ 7) : (s.pushed v).readReg r = s.readReg r :=
  s.readReg_setSp_other _ hr

theorem State.pushed_readMem_sp {s : State} (hmem : s.mem.wf = true) (v : Byte) :
    (s.pushed v).readMem (s.pushed v).sp = v := by
  rw [State.pushed_sp]
  exact Memory.read_write_same hmem _ v

theorem State.pushed_readMem_other (s : State) (v : Byte) {addr : Byte} (haddr : addr ≠ s.sp - 1) :
    (s.pushed v).readMem addr = s.readMem addr :=
  Memory.read_write_other _ v fun e => haddr (BitVec.eq_of_toNat_eq e).symm

theorem State.pushed_sp_add_one (s : State) (v : Byte) : (s.pushed v).sp + 1 = s.sp := by
  rw [State.pushed_sp]
  exact sub_add_cancel s.sp 1

theorem State.setSp_setSp_sp (s : State) (v : Byte) : (s.setSp v).setSp s.sp = s :=
  (s.writeReg_writeReg Config.spReg v s.sp).trans (s.writeReg_readReg Config.spReg)

/-- SP moved back after a push leaves the registers as they were before it. -/
theorem State.pushed_setSp_x (s : State) (v : Byte) : ((s.pushed v).setSp ((s.pushed v).sp + 1)).x = s.x := by
  rw [State.pushed_sp_add_one]
  calc
    _ = ((s.setSp (s.sp - 1)).setSp s.sp).x := rfl
    _ = s.x := by rw [State.setSp_setSp_sp]

theorem State.pushed_sp_ne {s : State} (hsp : s.sp ≠ 0) (v : Byte) : (s.pushed v).sp ≠ 255 := by
  rw [State.pushed_sp]
  bv_omega

theorem State.popped_sp (s : State) (r : Reg) : (s.popped r).sp = s.sp + 1 :=
  State.readReg_writeReg_same _ Config.spReg _

theorem State.popped_readReg_same (s : State) {r : Reg} (hr : r ≠ 7) : (s.popped r).readReg r = s.readMem s.sp :=
  (State.readReg_setSp_other _ _ hr).trans (s.readReg_writeReg_same r _)

theorem State.popped_readReg_other (s : State) {r q : Reg} (hq : q ≠ 7) (hqr : q ≠ r) :
    (s.popped r).readReg q = s.readReg q :=
  (State.readReg_setSp_other _ _ hq).trans (s.readReg_writeReg_other _ hqr)

theorem State.popped_readMem (s : State) (r : Reg) (addr : Byte) : (s.popped r).readMem addr = s.readMem addr := rfl

/-- A POP of a register that already holds the byte at SP moves SP alone, R7 included. -/
theorem exec_pop_of_cell_eq {s : State} {r : Reg} (hcell : s.readMem s.sp = s.readReg r) (hsp : s.sp ≠ 255) :
    exec (.pop r.byte) s = .next ((s.setSp (s.sp + 1)).advance 2) := by
  have hsame : s.writeReg r (s.readMem s.sp) = s := by rw [hcell, State.writeReg_readReg]
  have h := exec_of_completes (.pop r s (by rwa [hsame]))
  rwa [hsame] at h

theorem State.popped_pushed_sp (s : State) (v : Byte) (r : Reg) : ((s.pushed v).popped r).sp = s.sp := by
  rw [State.popped_sp, State.pushed_sp_add_one]

theorem State.pushed_mem_wf {s : State} (hmem : s.mem.wf = true) (v : Byte) : (s.pushed v).mem.wf = true :=
  Memory.write_byte_wf hmem _ v

/-- A push and SP moved back: the byte stays below the stack. -/
theorem State.pushed_setSp_advance {s : State} (hsp : s.sp ≠ 0) (v : Byte) :
    ((s.pushed v).setSp ((s.pushed v).sp + 1)).advance 2 =
      { s with mem := s.mem.write (s.x[7].toNat - 1) v, pc := s.pc + 4 } := by
  have hpc : s.pc + 2 + 2 = s.pc + 4 := add_assoc s.pc 2 2
  calc
    _ = { s.pushed v with x := ((s.pushed v).setSp ((s.pushed v).sp + 1)).x, pc := s.pc + 2 + 2 } := rfl
    _ = _ := by rw [State.pushed_setSp_x, hpc, State.pushed_eq hsp]

/-! ### Last in, first out -/

/-- Of two bytes pushed the later one is popped first. -/
theorem State.pops_give_second_first {s : State} (hmem : s.mem.wf = true) (v w : Byte) {c d : Reg} (hc : c ≠ 7)
    (hcd : c ≠ d) : ((((s.pushed v).pushed w).popped c).popped d).readReg c = w := by
  rw [State.popped_readReg_other _ hc hcd, State.popped_readReg_same _ hc,
    State.pushed_readMem_sp (State.pushed_mem_wf hmem v)]

/-- The earlier one is kept below it, and popped second. -/
theorem State.pops_give_first_second {s : State} (hmem : s.mem.wf = true) (v w : Byte) (c : Reg) {d : Reg}
    (hd : d ≠ 7) : ((((s.pushed v).pushed w).popped c).popped d).readReg d = v := by
  have hbelow : (s.pushed v).sp ≠ (s.pushed v).sp - 1 := by bv_omega
  rw [State.popped_readReg_same _ hd, State.popped_pushed_sp, State.popped_readMem,
    State.pushed_readMem_other _ _ hbelow, State.pushed_readMem_sp hmem]

theorem State.pops_restore_sp (s : State) (v w : Byte) (c d : Reg) :
    ((((s.pushed v).pushed w).popped c).popped d).sp = s.sp := by
  rw [State.popped_sp, State.popped_pushed_sp, State.pushed_sp_add_one]

/-- Settles O51: the POP finds at SP the byte that its register holds since the PUSH. Of two registers, the second pop
finds the first byte kept, since the second push stored below it. -/
theorem pushThenPopIsLastInFirstOut : Obligations.PushThenPopIsLastInFirstOut := by
  unfold Obligations.PushThenPopIsLastInFirstOut
  refine ⟨?single, ?two⟩
  case single =>
    intro r s hmem hsp
    exact ⟨_, _, exec_push hsp r, exec_pop_of_cell_eq (State.pushed_readMem_sp hmem _) (State.pushed_sp_ne hsp _),
      State.pushed_setSp_advance hsp _⟩
  case two =>
    intro a b c d s hmem ha hb hc hd hcd hroom
    have hsp : s.sp ≠ 0 := by
      rw [State.sp_eq]
      bv_omega
    have htsp : (s.pushed (s.readReg a)).sp ≠ 0 := by
      rw [State.pushed_sp, State.sp_eq]
      bv_omega
    have hvsp : (((s.pushed (s.readReg a)).pushed ((s.pushed (s.readReg a)).readReg b)).popped c).sp ≠ 255 := by
      rw [State.popped_pushed_sp]
      exact State.pushed_sp_ne hsp _
    exact ⟨_, _, _, _, exec_push_of_ne hsp ha, exec_push_of_ne htsp hb,
      exec_pop_of_ne hc (State.pushed_sp_ne htsp _), exec_pop_of_ne hd hvsp,
      (State.pops_give_second_first hmem _ _ hc hcd).trans (s.pushed_readReg _ hb),
      State.pops_give_first_second hmem _ _ c hd, State.pops_restore_sp s _ _ c d⟩

/-! ### The jump without a return address -/

/-- Settles O53: RET takes from SP the target that PUSH stored, and SP is back where it was. -/
theorem ldiPushRetJumps : Obligations.LdiPushRetJumps := by
  unfold Obligations.LdiPushRetJumps
  intro r target s hmem hr hsp
  have hloaded : ((s.writeReg r target).advance 3).readReg r = target := s.readReg_writeReg_same r target
  have hroom : ((s.writeReg r target).advance 3).sp ≠ 0 := (s.writeReg_sp_other target hr).trans_ne hsp
  refine ⟨_, _, _, exec_of_completes (.ldi r target s), exec_push_of_ne hroom hr,
    exec_of_completes (.ret _ (State.pushed_sp_ne hroom _)), ?pc, ?registers⟩
  case pc =>
    have hcell := State.pushed_readMem_sp (s := (s.writeReg r target).advance 3) hmem
    exact congrArg zext9 ((hcell _).trans hloaded)
  case registers => exact State.pushed_setSp_x _ _

/-! ### The limits -/

/-- An instruction that takes one from a count, as long as it is not 0, and keeps `fault_code`, does so as often as the
count says. -/
theorem execTimes_of_counts_down {i : Instr} {count : State → Nat}
    (hone : ∀ s, count s ≠ 0 → ∃ t, exec i s = .next t ∧ count s = count t + 1 ∧ t.faultCode = s.faultCode)
    (s : State) : ∃ t, execTimes i (count s) s = .next t ∧ count t = 0 ∧ t.faultCode = s.faultCode := by
  induction hn : count s generalizing s with
  | zero => exact ⟨s, rfl, hn, rfl⟩
  | succ n ih =>
    obtain ⟨t, hexec, hcount, hcode⟩ := hone s (by omega)
    obtain ⟨u, htimes, hzero, hcode'⟩ := ih t (by omega)
    refine ⟨u, ?_, hzero, hcode'.trans hcode⟩
    rw [execTimes, hexec]
    exact htimes

theorem exec_push_counts_down {r : Reg} (hr : r ≠ 7) (s : State) (hroom : s.sp.toNat ≠ 0) :
    ∃ t, exec (.push r.byte) s = .next t ∧ s.sp.toNat = t.sp.toNat + 1 ∧ t.faultCode = s.faultCode := by
  have hsp : s.sp ≠ 0 := ne_of_apply_ne BitVec.toNat hroom
  refine ⟨_, exec_push_of_ne hsp hr, ?_, rfl⟩
  rw [State.pushed_sp, byte_sub_one_toNat hsp]
  omega

theorem exec_pop_counts_down {r : Reg} (hr : r ≠ 7) (s : State) (hroom : 255 - s.sp.toNat ≠ 0) :
    ∃ t, exec (.pop r.byte) s = .next t ∧ 255 - s.sp.toNat = 255 - t.sp.toNat + 1 ∧ t.faultCode = s.faultCode := by
  have hsp : s.sp ≠ 255 := by bv_omega
  refine ⟨_, exec_pop_of_ne hr hsp, ?_, rfl⟩
  rw [State.popped_sp, byte_add_one_toNat hsp]
  omega

/-- Settles O55: a push takes one from SP until it is 0, a pop takes one from what is left to 255. -/
theorem stackLimits : Obligations.StackLimits := by
  unfold Obligations.StackLimits
  refine ⟨?pushes, ?pops⟩
  case pushes =>
    intro r s hr
    obtain ⟨t, htimes, hzero, hcode⟩ := execTimes_of_counts_down (exec_push_counts_down hr) s
    have hsp : t.sp = 0 := BitVec.eq_of_toNat_eq hzero
    exact ⟨t, htimes, hsp, hcode, exec_of_faults (.push r t hsp)⟩
  case pops =>
    intro r s hr
    obtain ⟨t, htimes, hzero, hcode⟩ := execTimes_of_counts_down (exec_pop_counts_down hr) s
    have hsp : t.sp = 255 := by bv_omega
    exact ⟨t, htimes, hsp, hcode, exec_of_faults (.pop r t ((t.writeReg_sp_other _ hr).trans hsp))⟩

end Sys2Proof.Machine
end
